-- ==== Sys2Proof/Word.lean ====
section
/-! DEFINITION. The word types of the machine (00_scope.md R4, R6): every value is an unsigned bit vector of one of
these widths. There is no signed arithmetic anywhere (R6), so nothing else is defined here. -/

namespace Sys2Proof

/-- A data byte: a V register, a timer, a memory cell (R4: XLEN = 8). -/
abbrev Byte := BitVec 8

/-- A 16-bit opcode (R50). -/
abbrev Word := BitVec 16

/-- A 12-bit address: I, PC, a stack entry, the literal NNN (R4: ADDR_BITS = 12). -/
abbrev Addr := BitVec 12

/-- A 4-bit field: a register index X or Y, the literal N, a key index (R51). -/
abbrev Nibble := BitVec 4

end Sys2Proof
end

