-- ==== Sys2Proof/Syntax.lean ====
section
/-! DEFINITION. The 34 instructions of 30_encoding.md R54, one constructor per row of spec/opcode_table.json, in the
table's order. Operands have the widths of their fields (R51, R53), so all sixteen registers and every literal value are
operands, and nothing else is. -/

namespace Sys2Proof

/-- An instruction with its fields. `x`, `y` are register indices, `n`, `nn`, `nnn` literals (R51). -/
inductive Instr where
  /-- 00E0 `CLS` (R172). -/
  | cls
  /-- 00EE `RET` (R111). -/
  | ret
  /-- 1NNN `JP NNN` (R112). -/
  | jp (nnn : Addr)
  /-- 2NNN `CALL NNN` (R113). -/
  | call (nnn : Addr)
  /-- 3XNN `SE Vx,NN` (R114). -/
  | seImm (x : Nibble) (nn : Byte)
  /-- 4XNN `SNE Vx,NN` (R115). -/
  | sneImm (x : Nibble) (nn : Byte)
  /-- 5XY0 `SE Vx,Vy` (R116). -/
  | seReg (x y : Nibble)
  /-- 6XNN `LD Vx,NN` (R92). -/
  | ldImm (x : Nibble) (nn : Byte)
  /-- 7XNN `ADD Vx,NN` (R93). -/
  | addImm (x : Nibble) (nn : Byte)
  /-- 8XY0 `LD Vx,Vy` (R94). -/
  | ldReg (x y : Nibble)
  /-- 8XY1 `OR Vx,Vy` (R95). -/
  | orReg (x y : Nibble)
  /-- 8XY2 `AND Vx,Vy` (R96). -/
  | andReg (x y : Nibble)
  /-- 8XY3 `XOR Vx,Vy` (R97). -/
  | xorReg (x y : Nibble)
  /-- 8XY4 `ADD Vx,Vy` (R98). -/
  | addReg (x y : Nibble)
  /-- 8XY5 `SUB Vx,Vy` (R99). -/
  | subReg (x y : Nibble)
  /-- 8XY6 `SHR Vx` (R100). The field `y` is encoded but ignored. -/
  | shr (x y : Nibble)
  /-- 8XY7 `SUBN Vx,Vy` (R101). -/
  | subnReg (x y : Nibble)
  /-- 8XYE `SHL Vx` (R102). The field `y` is encoded but ignored. -/
  | shl (x y : Nibble)
  /-- 9XY0 `SNE Vx,Vy` (R117). -/
  | sneReg (x y : Nibble)
  /-- ANNN `LD I,NNN` (R130). -/
  | ldI (nnn : Addr)
  /-- BNNN `JP V0,NNN` (R118). -/
  | jpV0 (nnn : Addr)
  /-- CXNN `RND Vx,NN` (R156). -/
  | rnd (x : Nibble) (nn : Byte)
  /-- DXYN `DRW Vx,Vy,N` (R173). -/
  | drw (x y n : Nibble)
  /-- EX9E `SKP Vx` (R153). -/
  | skp (x : Nibble)
  /-- EXA1 `SKNP Vx` (R154). -/
  | sknp (x : Nibble)
  /-- FX07 `LD Vx,DT` (R150). -/
  | ldVxDt (x : Nibble)
  /-- FX0A `LD Vx,K` (R155). -/
  | ldVxK (x : Nibble)
  /-- FX15 `LD DT,Vx` (R151). -/
  | ldDtVx (x : Nibble)
  /-- FX18 `LD ST,Vx` (R152). -/
  | ldStVx (x : Nibble)
  /-- FX1E `ADD I,Vx` (R131). -/
  | addI (x : Nibble)
  /-- FX29 `LD F,Vx` (R132). -/
  | ldF (x : Nibble)
  /-- FX33 `LD B,Vx` (R133). -/
  | ldB (x : Nibble)
  /-- FX55 `LD [I],Vx` (R134). -/
  | storeRegs (x : Nibble)
  /-- FX65 `LD Vx,[I]` (R135). -/
  | loadRegs (x : Nibble)
  deriving DecidableEq, Repr

/-- An operand as it is written, before it is known to fit a field of the opcode (R53). -/
inductive Operand where
  /-- A register number: legal 0 to 15. -/
  | reg (k : Nat)
  /-- The literal N: legal 0 to 15. -/
  | nibble (k : Nat)
  /-- The literal NN: legal 0 to 255. -/
  | byte (k : Nat)
  /-- The literal NNN: legal 0 to 4095. -/
  | addr (k : Nat)
  deriving DecidableEq, Repr

/-- The operands an instruction's encoding carries, in the order X, Y, then the literal (R52). -/
def Instr.operands : Instr → List Operand
  | .cls | .ret => []
  | .jp nnn | .call nnn | .ldI nnn | .jpV0 nnn => [.addr nnn.toNat]
  | .seImm x nn | .sneImm x nn | .ldImm x nn | .addImm x nn | .rnd x nn => [.reg x.toNat, .byte nn.toNat]
  | .seReg x y | .ldReg x y | .orReg x y | .andReg x y | .xorReg x y | .addReg x y | .subReg x y | .shr x y
  | .subnReg x y | .shl x y | .sneReg x y => [.reg x.toNat, .reg y.toNat]
  | .drw x y n => [.reg x.toNat, .reg y.toNat, .nibble n.toNat]
  | .skp x | .sknp x | .ldVxDt x | .ldVxK x | .ldDtVx x | .ldStVx x | .addI x | .ldF x | .ldB x | .storeRegs x
  | .loadRegs x => [.reg x.toNat]

end Sys2Proof
end

