-- ==== Sys2Proof/WellFormed.lean ====
section
/-! DEFINITION. Well-formedness: each operand fits the field that encodes it (30_encoding.md R51, R53). Every value a
field can hold is legal (R53; 60_exceptions.md R196: "no illegal-operand error"), and the types of Instr's arguments
already bound them, so every Instr is well-formed; the checks bite on operands as they are written (Operand). -/

namespace Sys2Proof

/-- A register operand names one of V0 to VF (R11, R53). -/
def regFits (k : Nat) : Bool := decide (k < 16)
/-- The literal N is 0 to 15 (R53). -/
def nibbleFits (k : Nat) : Bool := decide (k < 16)
/-- The literal NN is 0 to 255 (R53). -/
def byteFits (k : Nat) : Bool := decide (k < 256)
/-- The literal NNN is 0 to 4095 (R53). -/
def addrFits (k : Nat) : Bool := decide (k < 4096)

/-- An operand fits its field. -/
def Operand.wf : Operand → Bool
  | .reg k => regFits k
  | .nibble k => nibbleFits k
  | .byte k => byteFits k
  | .addr k => addrFits k

/-- Every operand of the instruction fits its field. -/
def Instr.wf (i : Instr) : Bool := i.operands.all Operand.wf

end Sys2Proof
end

