-- ==== Sys2Proof/Decode.lean ====
section
/-! DEFINITION. The decoder of 30_encoding.md R51, R55, R56, the encoder of R52, R54, and R54's opcode map as data.
Decoding reads nothing but the 16-bit opcode (40_step_cycle.md R73), is total, and rejects by name what matches no row. -/

namespace Sys2Proof

/-- Why decoding fails (R56, R191): the opcode matches no row of R54; all 16 bits as fetched are carried. -/
inductive DecodeError where
  | unknownOpcode (op : Word)
  deriving DecidableEq, Repr

/-! ### The fields of an opcode (R51) -/

/-- OP = op[15:12], the family selector. -/
def fieldOP (op : Word) : Nibble := op.extractLsb' 12 4
/-- X = op[11:8]. -/
def fieldX (op : Word) : Nibble := op.extractLsb' 8 4
/-- Y = op[7:4]. -/
def fieldY (op : Word) : Nibble := op.extractLsb' 4 4
/-- N = op[3:0]. -/
def fieldN (op : Word) : Nibble := op.extractLsb' 0 4
/-- NN = op[7:0]. -/
def fieldNN (op : Word) : Byte := op.extractLsb' 0 8
/-- NNN = op[11:0]. -/
def fieldNNN (op : Word) : Addr := op.extractLsb' 0 12

/-! ### The decoder (R55) -/

/-- Family 0: all 16 bits are compared (R55, D3). -/
def decodeFamily0 (op : Word) : Except DecodeError Instr :=
  if op = 0x00E0#16 then .ok .cls
  else if op = 0x00EE#16 then .ok .ret
  else .error (.unknownOpcode op)

/-- Family 8: the low nibble selects the operation (R55). -/
def decodeFamily8 (op : Word) : Except DecodeError Instr :=
  if fieldN op = 0x0#4 then .ok (.ldReg (fieldX op) (fieldY op))
  else if fieldN op = 0x1#4 then .ok (.orReg (fieldX op) (fieldY op))
  else if fieldN op = 0x2#4 then .ok (.andReg (fieldX op) (fieldY op))
  else if fieldN op = 0x3#4 then .ok (.xorReg (fieldX op) (fieldY op))
  else if fieldN op = 0x4#4 then .ok (.addReg (fieldX op) (fieldY op))
  else if fieldN op = 0x5#4 then .ok (.subReg (fieldX op) (fieldY op))
  else if fieldN op = 0x6#4 then .ok (.shr (fieldX op) (fieldY op))
  else if fieldN op = 0x7#4 then .ok (.subnReg (fieldX op) (fieldY op))
  else if fieldN op = 0xE#4 then .ok (.shl (fieldX op) (fieldY op))
  else .error (.unknownOpcode op)

/-- Family E: the low byte selects the operation (R55). -/
def decodeFamilyE (op : Word) : Except DecodeError Instr :=
  if fieldNN op = 0x9E#8 then .ok (.skp (fieldX op))
  else if fieldNN op = 0xA1#8 then .ok (.sknp (fieldX op))
  else .error (.unknownOpcode op)

/-- Family F: the low byte selects the operation (R55). -/
def decodeFamilyF (op : Word) : Except DecodeError Instr :=
  if fieldNN op = 0x07#8 then .ok (.ldVxDt (fieldX op))
  else if fieldNN op = 0x0A#8 then .ok (.ldVxK (fieldX op))
  else if fieldNN op = 0x15#8 then .ok (.ldDtVx (fieldX op))
  else if fieldNN op = 0x18#8 then .ok (.ldStVx (fieldX op))
  else if fieldNN op = 0x1E#8 then .ok (.addI (fieldX op))
  else if fieldNN op = 0x29#8 then .ok (.ldF (fieldX op))
  else if fieldNN op = 0x33#8 then .ok (.ldB (fieldX op))
  else if fieldNN op = 0x55#8 then .ok (.storeRegs (fieldX op))
  else if fieldNN op = 0x65#8 then .ok (.loadRegs (fieldX op))
  else .error (.unknownOpcode op)

/-- The decode algorithm of R55: the top 4 bits select the family. -/
def decode (op : Word) : Except DecodeError Instr :=
  if fieldOP op = 0x0#4 then decodeFamily0 op
  else if fieldOP op = 0x1#4 then .ok (.jp (fieldNNN op))
  else if fieldOP op = 0x2#4 then .ok (.call (fieldNNN op))
  else if fieldOP op = 0x3#4 then .ok (.seImm (fieldX op) (fieldNN op))
  else if fieldOP op = 0x4#4 then .ok (.sneImm (fieldX op) (fieldNN op))
  else if fieldOP op = 0x5#4 then
    if fieldN op = 0x0#4 then .ok (.seReg (fieldX op) (fieldY op)) else .error (.unknownOpcode op)
  else if fieldOP op = 0x6#4 then .ok (.ldImm (fieldX op) (fieldNN op))
  else if fieldOP op = 0x7#4 then .ok (.addImm (fieldX op) (fieldNN op))
  else if fieldOP op = 0x8#4 then decodeFamily8 op
  else if fieldOP op = 0x9#4 then
    if fieldN op = 0x0#4 then .ok (.sneReg (fieldX op) (fieldY op)) else .error (.unknownOpcode op)
  else if fieldOP op = 0xA#4 then .ok (.ldI (fieldNNN op))
  else if fieldOP op = 0xB#4 then .ok (.jpV0 (fieldNNN op))
  else if fieldOP op = 0xC#4 then .ok (.rnd (fieldX op) (fieldNN op))
  else if fieldOP op = 0xD#4 then .ok (.drw (fieldX op) (fieldY op) (fieldN op))
  else if fieldOP op = 0xE#4 then decodeFamilyE op
  else decodeFamilyF op

/-- The opcode two consecutive bytes make: the high byte is the one at the lower address (R34, R50). -/
def opcodeOfBytes (hi lo : Byte) : Word := hi ++ lo

/-- Decoding of the bytes as they lie in memory. -/
def decodeBytes (hi lo : Byte) : Except DecodeError Instr := decode (opcodeOfBytes hi lo)

/-! ### The encoder (R52, R54) -/

/-- Format NNN (R52). -/
def formatNNN (op : Nibble) (nnn : Addr) : Word := op ++ nnn
/-- Format XNN (R52). -/
def formatXNN (op x : Nibble) (nn : Byte) : Word := op ++ (x ++ nn)
/-- Formats XY and XYN (R52). -/
def formatXYN (op x y n : Nibble) : Word := op ++ (x ++ (y ++ n))

/-- The opcode of an instruction. In the two shifts the ignored field Y keeps its value. -/
def encode : Instr → Word
  | .cls => 0x00E0#16
  | .ret => 0x00EE#16
  | .jp nnn => formatNNN 0x1#4 nnn
  | .call nnn => formatNNN 0x2#4 nnn
  | .seImm x nn => formatXNN 0x3#4 x nn
  | .sneImm x nn => formatXNN 0x4#4 x nn
  | .seReg x y => formatXYN 0x5#4 x y 0x0#4
  | .ldImm x nn => formatXNN 0x6#4 x nn
  | .addImm x nn => formatXNN 0x7#4 x nn
  | .ldReg x y => formatXYN 0x8#4 x y 0x0#4
  | .orReg x y => formatXYN 0x8#4 x y 0x1#4
  | .andReg x y => formatXYN 0x8#4 x y 0x2#4
  | .xorReg x y => formatXYN 0x8#4 x y 0x3#4
  | .addReg x y => formatXYN 0x8#4 x y 0x4#4
  | .subReg x y => formatXYN 0x8#4 x y 0x5#4
  | .shr x y => formatXYN 0x8#4 x y 0x6#4
  | .subnReg x y => formatXYN 0x8#4 x y 0x7#4
  | .shl x y => formatXYN 0x8#4 x y 0xE#4
  | .sneReg x y => formatXYN 0x9#4 x y 0x0#4
  | .ldI nnn => formatNNN 0xA#4 nnn
  | .jpV0 nnn => formatNNN 0xB#4 nnn
  | .rnd x nn => formatXNN 0xC#4 x nn
  | .drw x y n => formatXYN 0xD#4 x y n
  | .skp x => formatXNN 0xE#4 x 0x9E#8
  | .sknp x => formatXNN 0xE#4 x 0xA1#8
  | .ldVxDt x => formatXNN 0xF#4 x 0x07#8
  | .ldVxK x => formatXNN 0xF#4 x 0x0A#8
  | .ldDtVx x => formatXNN 0xF#4 x 0x15#8
  | .ldStVx x => formatXNN 0xF#4 x 0x18#8
  | .addI x => formatXNN 0xF#4 x 0x1E#8
  | .ldF x => formatXNN 0xF#4 x 0x29#8
  | .ldB x => formatXNN 0xF#4 x 0x33#8
  | .storeRegs x => formatXNN 0xF#4 x 0x55#8
  | .loadRegs x => formatXNN 0xF#4 x 0x65#8

/-- The byte at the lower address of an opcode, op[15:8] (R51). -/
def highByte (op : Word) : Byte := op.extractLsb' 8 8
/-- The byte at the higher address, op[7:0] (R51). -/
def lowByte (op : Word) : Byte := op.extractLsb' 0 8

/-- The two bytes of an instruction as they lie in memory, the high byte first (R34, R58). -/
def encodeBytes (i : Instr) : List Byte := [highByte (encode i), lowByte (encode i)]

/-! ### The opcode map as data (R54) -/

/-- A row of R54: an opcode selects it when `op &&& mask = value`. -/
structure OpcodeRow where
  mnemonic : String
  mask : Word
  value : Word
  deriving DecidableEq, Repr

/-- Does an opcode select the row? -/
def OpcodeRow.selects (r : OpcodeRow) (op : Word) : Bool := op &&& r.mask == r.value

/-- Rows 1 to 9 of R54. -/
def opcodeRows1 : List OpcodeRow :=
  [⟨"CLS", 0xFFFF#16, 0x00E0#16⟩, ⟨"RET", 0xFFFF#16, 0x00EE#16⟩, ⟨"JP_NNN", 0xF000#16, 0x1000#16⟩,
   ⟨"CALL_NNN", 0xF000#16, 0x2000#16⟩, ⟨"SE_Vx_NN", 0xF000#16, 0x3000#16⟩, ⟨"SNE_Vx_NN", 0xF000#16, 0x4000#16⟩,
   ⟨"SE_Vx_Vy", 0xF00F#16, 0x5000#16⟩, ⟨"LD_Vx_NN", 0xF000#16, 0x6000#16⟩, ⟨"ADD_Vx_NN", 0xF000#16, 0x7000#16⟩]

/-- Rows 10 to 18 of R54. -/
def opcodeRows2 : List OpcodeRow :=
  [⟨"LD_Vx_Vy", 0xF00F#16, 0x8000#16⟩, ⟨"OR_Vx_Vy", 0xF00F#16, 0x8001#16⟩, ⟨"AND_Vx_Vy", 0xF00F#16, 0x8002#16⟩,
   ⟨"XOR_Vx_Vy", 0xF00F#16, 0x8003#16⟩, ⟨"ADD_Vx_Vy", 0xF00F#16, 0x8004#16⟩, ⟨"SUB_Vx_Vy", 0xF00F#16, 0x8005#16⟩,
   ⟨"SHR_Vx", 0xF00F#16, 0x8006#16⟩, ⟨"SUBN_Vx_Vy", 0xF00F#16, 0x8007#16⟩, ⟨"SHL_Vx", 0xF00F#16, 0x800E#16⟩]

/-- Rows 19 to 25 of R54. -/
def opcodeRows3 : List OpcodeRow :=
  [⟨"SNE_Vx_Vy", 0xF00F#16, 0x9000#16⟩, ⟨"LD_I_NNN", 0xF000#16, 0xA000#16⟩, ⟨"JP_V0_NNN", 0xF000#16, 0xB000#16⟩,
   ⟨"RND_Vx_NN", 0xF000#16, 0xC000#16⟩, ⟨"DRW_Vx_Vy_N", 0xF000#16, 0xD000#16⟩, ⟨"SKP_Vx", 0xF0FF#16, 0xE09E#16⟩,
   ⟨"SKNP_Vx", 0xF0FF#16, 0xE0A1#16⟩]

/-- Rows 26 to 34 of R54. -/
def opcodeRows4 : List OpcodeRow :=
  [⟨"LD_Vx_DT", 0xF0FF#16, 0xF007#16⟩, ⟨"LD_Vx_K", 0xF0FF#16, 0xF00A#16⟩, ⟨"LD_DT_Vx", 0xF0FF#16, 0xF015#16⟩,
   ⟨"LD_ST_Vx", 0xF0FF#16, 0xF018#16⟩, ⟨"ADD_I_Vx", 0xF0FF#16, 0xF01E#16⟩, ⟨"LD_F_Vx", 0xF0FF#16, 0xF029#16⟩,
   ⟨"LD_B_Vx", 0xF0FF#16, 0xF033#16⟩, ⟨"LD__I__Vx", 0xF0FF#16, 0xF055#16⟩, ⟨"LD_Vx__I", 0xF0FF#16, 0xF065#16⟩]

/-- The opcode map of R54, its 34 rows in order. -/
def opcodeTable : List OpcodeRow := opcodeRows1 ++ opcodeRows2 ++ opcodeRows3 ++ opcodeRows4

/-- The instruction's mnemonic in spec/opcode_table.json. -/
def mnemonicOf : Instr → String
  | .cls => "CLS"
  | .ret => "RET"
  | .jp _ => "JP_NNN"
  | .call _ => "CALL_NNN"
  | .seImm _ _ => "SE_Vx_NN"
  | .sneImm _ _ => "SNE_Vx_NN"
  | .seReg _ _ => "SE_Vx_Vy"
  | .ldImm _ _ => "LD_Vx_NN"
  | .addImm _ _ => "ADD_Vx_NN"
  | .ldReg _ _ => "LD_Vx_Vy"
  | .orReg _ _ => "OR_Vx_Vy"
  | .andReg _ _ => "AND_Vx_Vy"
  | .xorReg _ _ => "XOR_Vx_Vy"
  | .addReg _ _ => "ADD_Vx_Vy"
  | .subReg _ _ => "SUB_Vx_Vy"
  | .shr _ _ => "SHR_Vx"
  | .subnReg _ _ => "SUBN_Vx_Vy"
  | .shl _ _ => "SHL_Vx"
  | .sneReg _ _ => "SNE_Vx_Vy"
  | .ldI _ => "LD_I_NNN"
  | .jpV0 _ => "JP_V0_NNN"
  | .rnd _ _ => "RND_Vx_NN"
  | .drw _ _ _ => "DRW_Vx_Vy_N"
  | .skp _ => "SKP_Vx"
  | .sknp _ => "SKNP_Vx"
  | .ldVxDt _ => "LD_Vx_DT"
  | .ldVxK _ => "LD_Vx_K"
  | .ldDtVx _ => "LD_DT_Vx"
  | .ldStVx _ => "LD_ST_Vx"
  | .addI _ => "ADD_I_Vx"
  | .ldF _ => "LD_F_Vx"
  | .ldB _ => "LD_B_Vx"
  | .storeRegs _ => "LD__I__Vx"
  | .loadRegs _ => "LD_Vx__I"

/-! ### The host's reading of a table word -/

/-- The instruction the decoder reads from a word numbered as spec/opcode_table.json numbers it: the table's rows are one
16-bit word, bit 15 the most significant, so the word is the opcode; its two bytes are laid out as memory holds them
(high byte first, R34) and decoded. An instruction has no bits above 16. -/
def decodeTableWord (nbits w : Nat) : Option Instr :=
  let op : Word := BitVec.ofNat 16 (w % 2 ^ nbits)
  match decodeBytes (highByte op) (lowByte op) with
  | .ok i => some i
  | .error _ => none

end Sys2Proof
end

