-- ==== Sys2Proof/Config.lean ====
section
/-! DEFINITION. What the implementation fixes: the sizes of 00_scope.md R4, and the one free value the spec leaves open
(R5, 92_eei_decisions.md D9). -/

namespace Sys2Proof

/-- MEM_SIZE (R4). -/
def Config.memSize : Nat := 4096
/-- STACK_DEPTH (R4). -/
def Config.stackDepth : Nat := 16
/-- PROG_BASE (R4): the reset entry point and the address the Loader writes to. -/
def Config.progBase : Nat := 0x200
/-- The Loader's bound (R4, R204): an image is accepted when its length is below 3584. -/
def Config.loadLimit : Nat := 3584
/-- FONT_BASE (R4): the address reset copies FONT to. -/
def Config.fontBase : Nat := 0x000
/-- FONT_LEN (R4). -/
def Config.fontLen : Nat := 80
/-- GLYPH_LEN (R4). -/
def Config.glyphLen : Nat := 5

/-- FREE VALUE. RND() of R156: the byte the host supplies to the k-th executed `RND Vx,NN`. It has no body: nothing can
evaluate it, so whatever is proved holds for every byte the host may supply at every draw (D9, log 8). -/
opaque Config.rndByte : Nat → Byte

end Sys2Proof
end

