-- ==== Sys2Proof/Machine/State.lean ====
section
/-! DEFINITION. The state of the core (10_state.md R10), its reset values (R25, R220), and the reasons a step can stop
(60_exceptions.md R190). Plain data only. -/

namespace Sys2Proof.Machine

open Sys2Proof

/-- MEM (R30): the listed cells, addresses strictly rising, none equal to what an unlisted address reads as
(Memory.wf in Machine/Ops.lean states the form; Memory.unlisted is what an unlisted address reads as). -/
abbrev Memory := List Host.Cell

/-- FB (R19): 32 rows (y, top to bottom) of 64 pixels (x, left to right); true is a set pixel. -/
abbrev FrameBuffer := Vector (Vector Bool 64) 32

/-- How a step that raised no error ended (R77): an OUTPUT of the step, held in the model's field `outcome`. -/
inductive StepOutcome where
  /-- An instruction executed. -/
  | completed
  /-- `LD Vx,K` with no key pressed: no progress, to be retried by the next step. -/
  | blocked
  deriving DecidableEq, Repr

/-- The state. The first eleven fields are the spec's ten elements (R10, which counts FB and DRAW_FLAG as one); the last
three are the MODEL's own: an output latch for TONE and the step outcome (R23, log 13) and the draw counter of the free
random byte (R156, log 8). No instruction reads `tone` or `outcome`. -/
structure State where
  /-- MEM[0..4095] (R10, R30). -/
  mem : Memory
  /-- V0 to VF (R11); index 15 is VF, also the flag register (R12). -/
  v : Vector Byte 16
  /-- The index register I (R14). -/
  i : Addr
  /-- The program counter PC (R13). -/
  pc : Addr
  /-- STACK[0..15] (R15). -/
  stack : Vector Addr 16
  /-- SP, the number of live entries, 0 to 16 (R15). -/
  sp : Fin 17
  /-- The delay timer DT (R16). -/
  dt : Byte
  /-- The sound timer ST (R17). -/
  st : Byte
  /-- The display buffer FB (R19). -/
  fb : FrameBuffer
  /-- DRAW_FLAG, "needs redraw" (R18). -/
  drawFlag : Bool
  /-- KEY[0..15] (R20); true is pressed. -/
  key : Vector Bool 16
  /-- MODEL FIELD: how many random bytes have been drawn (R156, D9). -/
  rndIndex : Nat
  /-- MODEL FIELD: the TONE output of the last step (R76). -/
  tone : Bool
  /-- MODEL FIELD: the outcome of the last step that raised no error (R77). -/
  outcome : StepOutcome
  deriving DecidableEq, Repr

/-- The machine after reset (R25, R220): PC = 0x200, I = 0, SP = 0, V, STACK, KEY, FB and both timers 0, DRAW_FLAG = 1,
memory with nothing listed (an unlisted address reads as its reset contents, the default FONT or 0: FONT is a parameter,
which this state instantiates with the default of R25, log 5; resetWith is the reset state for any FONT). The model's own fields:
no TONE (R221), no draw yet and `completed` (DESIGN CHOICE, log 8 and 13). -/
def State.reset : State where
  mem := []
  v := Vector.replicate 16 0#8
  i := 0x000#12
  pc := 0x200#12
  stack := Vector.replicate 16 0x000#12
  sp := 0
  dt := 0#8
  st := 0#8
  fb := Vector.replicate 32 (Vector.replicate 64 false)
  drawFlag := true
  key := Vector.replicate 16 false
  rndIndex := 0
  tone := false
  outcome := .completed

/-- The errors a step can raise (R190: a closed taxonomy; R196: no other exists). Each ends the step with no state
changed (R78), which a fault outcome, carrying no state, expresses exactly. -/
inductive Fault where
  /-- `DecodeError::UnknownOpcode(op)`, raised by the decode phase of any step when the fetched opcode matches no row of
  R54; it carries the raw 16 bits (R56, R191). Safe: the spec's own error. -/
  | unknownOpcode (op : Word)
  /-- `StackError::Overflow`, raised by `CALL NNN` with SP = 16 (R192). Safe: the spec's own error. -/
  | stackOverflow
  /-- `StackError::Underflow`, raised by `RET` with SP = 0 (R193). Safe: the spec's own error. -/
  | stackUnderflow
  deriving DecidableEq, Repr

/-- The reasons the model gives no meaning. -/
inductive Refusal where
  /-- The instruction has no meaning in this model. Raised only by exec's refused arms; safe (the model stops). Every
  instruction has its meaning here, so nothing raises it. -/
  | notModelled (mnemonic : String)
  deriving DecidableEq, Repr

/-- What a step, or the meaning of an instruction, answers. -/
abbrev Result := Host.Outcome State Fault Refusal

end Sys2Proof.Machine
end

