-- ==== Sys2Proof/Machine/Font.lean ====
section
/-! DEFINITION. The parameter FONT (R5, R25, D15): the 80 font bytes reset copies to address 0. It is an argument of reset
(resetWith and hostReset in HostPort.lean) and so of every session and launch; no instruction reads it. Its default value
is the table of R25, with which State.reset instantiates it (log 5). -/

namespace Sys2Proof.Machine

open Sys2Proof

/-- A value of FONT: 80 bytes (R5). -/
abbrev Font := Vector Byte 80

/-- Glyphs 0 to 3 of R25, 5 bytes each, top row first. -/
def fontGlyphs0to3 : List Byte :=
  [0xF0, 0x90, 0x90, 0x90, 0xF0] ++ [0x20, 0x60, 0x20, 0x20, 0x70] ++
  [0xF0, 0x10, 0xF0, 0x80, 0xF0] ++ [0xF0, 0x10, 0xF0, 0x10, 0xF0]

/-- Glyphs 4 to 7 of R25. -/
def fontGlyphs4to7 : List Byte :=
  [0x90, 0x90, 0xF0, 0x10, 0x10] ++ [0xF0, 0x80, 0xF0, 0x10, 0xF0] ++
  [0xF0, 0x80, 0xF0, 0x90, 0xF0] ++ [0xF0, 0x10, 0x20, 0x40, 0x40]

/-- Glyphs 8 to B of R25. -/
def fontGlyphs8toB : List Byte :=
  [0xF0, 0x90, 0xF0, 0x90, 0xF0] ++ [0xF0, 0x90, 0xF0, 0x10, 0xF0] ++
  [0xF0, 0x90, 0xF0, 0x90, 0x90] ++ [0xE0, 0x90, 0xE0, 0x90, 0xE0]

/-- Glyphs C to F of R25. -/
def fontGlyphsCtoF : List Byte :=
  [0xF0, 0x80, 0x80, 0x80, 0xF0] ++ [0xE0, 0x90, 0x90, 0x90, 0xE0] ++
  [0xF0, 0x80, 0xF0, 0x80, 0xF0] ++ [0xF0, 0x80, 0xF0, 0x80, 0x80]

/-- The 80 bytes of the default FONT (R25). -/
def defaultFontBytes : List Byte := fontGlyphs0to3 ++ fontGlyphs4to7 ++ fontGlyphs8toB ++ fontGlyphsCtoF

/-- The default FONT (R25). -/
def defaultFont : Font := ⟨defaultFontBytes.toArray, rfl⟩

/-- Byte k of the default FONT, k below 80. -/
def defaultFontByte (k : Nat) : Byte := defaultFontBytes.getD k 0#8

end Sys2Proof.Machine
end

