-- ==== Sys2Proof/Machine/Ops.lean ====
section
/-! DEFINITION. The named operations over memory and registers: the pseudocode primitives of 00_scope.md R7, "the only
ways a rule touches state". Each takes the state last, so a meaning reads as a pipeline in the order of its rule's
pseudocode. Raising an error, the machine's only exception entry (R199), is `raise`. -/

namespace Sys2Proof.Machine

open Sys2Proof

/-! ### Memory (20_memory.md) -/

/-- What an unlisted address reads as: its reset contents with the default FONT (R25, R31), the font below 0x050 and 0 above.
With another FONT reset lists the cells that differ (resetWith), so this is a matter of the list's form only (log 19). -/
def Memory.unlisted (a : Nat) : Byte := if a < Config.fontLen then defaultFontByte a else 0#8

/-- The byte listed for an address, if there is one. -/
def Memory.lookup : Memory → Nat → Option Byte
  | [], _ => none
  | (k, b) :: m, a => if k = a then some b else Memory.lookup m a

/-- The byte at an address (R36: reading has no side effect). -/
def Memory.read (m : Memory) (a : Addr) : Byte := (Memory.lookup m a.toNat).getD (Memory.unlisted a.toNat)

/-- The memory without any entry for an address. -/
def Memory.erase : Memory → Nat → Memory
  | [], _ => []
  | (k, b) :: m, a => if k = a then Memory.erase m a else (k, b) :: Memory.erase m a

/-- The memory with an entry for an address, at its place in the order of addresses. -/
def Memory.insert : Memory → Nat → Byte → Memory
  | [], a, c => [(a, c)]
  | (k, b) :: m, a, c =>
    if k < a then (k, b) :: Memory.insert m a c
    else if k = a then (a, c) :: m
    else (a, c) :: (k, b) :: m

/-- Store a byte (R32). Writing what an unlisted address reads as removes the entry, so equal memories are equal lists. -/
def Memory.write (m : Memory) (a : Addr) (b : Byte) : Memory :=
  if b = Memory.unlisted a.toNat then Memory.erase m a.toNat else Memory.insert m a.toNat b

/-- The canonical form: addresses strictly rising and inside the address space, no entry equal to what its address reads
as unlisted. -/
abbrev Memory.wf (m : Memory) : Prop :=
  m.Pairwise (fun c d => c.1 < d.1) ∧ ∀ c ∈ m, c.1 < Config.memSize ∧ c.2 ≠ Memory.unlisted c.1

/-- Any non-negative address, reduced modulo 4096 (R32, D4). -/
def memAddr (addr : Nat) : Addr := BitVec.ofNat 12 addr

/-- `MemRead(addr, 1)` (R32). -/
def memRead (addr : Nat) (s : State) : Byte := Memory.read s.mem (memAddr addr)

/-- `MemWrite(addr, 1, b)` (R32). -/
def memWrite (addr : Nat) (b : Byte) (s : State) : State := { s with mem := Memory.write s.mem (memAddr addr) b }

/-! ### Registers (10_state.md) -/

/-- `V[x]` (R11). -/
def readV (x : Nibble) (s : State) : Byte := s.v[x.toNat]'x.isLt

/-- `V[x] <- b` (R11): every register, VF included, is an ordinary register. -/
def writeV (x : Nibble) (b : Byte) (s : State) : State := { s with v := s.v.set x.toNat b x.isLt }

/-- The index of VF (R12). -/
def vf : Nibble := 15#4

/-- `I <- a` (R14). -/
def writeI (a : Addr) (s : State) : State := { s with i := a }

/-- `PC <- target` (R13). -/
def writePc (a : Addr) (s : State) : State := { s with pc := a }

/-- `advance(n)`: PC <- (PC + n) mod 4096 (R75, D6). -/
def advance (n : Nat) (s : State) : State := writePc (BitVec.ofNat 12 (s.pc.toNat + n)) s

/-- `DT <- b` (R16). -/
def writeDt (b : Byte) (s : State) : State := { s with dt := b }

/-- `ST <- b` (R17). -/
def writeSt (b : Byte) (s : State) : State := { s with st := b }

/-! ### The call stack (R15) -/

/-- Push the un-advanced PC and increment SP; none when the stack is full (R113). -/
def pushPc (s : State) : Option State :=
  if h : s.sp.val < 16 then
    some { s with stack := s.stack.set s.sp.val s.pc h, sp := ⟨s.sp.val + 1, by omega⟩ }
  else none

/-- Decrement SP, then PC <- STACK[SP]; none when the stack is empty (R111). The popped entry keeps its value (R15,
D16). -/
def popPc (s : State) : Option State :=
  if h : 0 < s.sp.val then
    some { s with sp := ⟨s.sp.val - 1, by omega⟩, pc := s.stack[s.sp.val - 1]'(by omega) }
  else none

/-! ### The display (R19, R18) -/

/-- The pixel at column x, row y, each coordinate reduced modulo the grid (R173, D7). -/
def FrameBuffer.get (f : FrameBuffer) (x y : Nat) : Bool :=
  (f[y % 32]'(Nat.mod_lt y (by decide)))[x % 64]'(Nat.mod_lt x (by decide))

/-- The buffer with the pixel at column x, row y flipped, each coordinate reduced modulo the grid (R173, D7). -/
def FrameBuffer.flip (f : FrameBuffer) (x y : Nat) : FrameBuffer :=
  f.set (y % 32)
    ((f[y % 32]'(Nat.mod_lt y (by decide))).set (x % 64) (!FrameBuffer.get f x y) (Nat.mod_lt x (by decide)))
    (Nat.mod_lt y (by decide))

/-- The clear display. -/
def FrameBuffer.clear : FrameBuffer := Vector.replicate 32 (Vector.replicate 64 false)

/-- `FB <- f`. -/
def writeFb (f : FrameBuffer) (s : State) : State := { s with fb := f }

/-- `DRAW_FLAG <- 1` (R18). -/
def markRedraw (s : State) : State := { s with drawFlag := true }

/-! ### Keys and the random byte (R20, R156) -/

/-- `KEY[k]` (R20): read-only to instructions. -/
def keyPressed (k : Nibble) (s : State) : Bool := s.key[k.toNat]'k.isLt

/-- The byte the next `RND()` returns: a free value (R7, R156, D9). -/
def rndByte (s : State) : Byte := Config.rndByte s.rndIndex

/-- One byte has been drawn: the next `RND()` is fresh. -/
def consumeRnd (s : State) : State := { s with rndIndex := s.rndIndex + 1 }

/-! ### How a step ends (R77, R199) -/

/-- The MODEL's output latch for the step outcome (R77). -/
def setOutcome (o : StepOutcome) (s : State) : State := { s with outcome := o }

/-- The MODEL's output latch for TONE (R76). -/
def setTone (b : Bool) (s : State) : State := { s with tone := b }

/-- The instruction executed: outcome `Completed` (R77). -/
def completed (s : State) : Result := .next (setOutcome .completed s)

/-- No progress: outcome `Blocked` (R77, R79). -/
def blocked (s : State) : Result := .next (setOutcome .blocked s)

/-- `raise <Error>`: TAKING AN EXCEPTION in this machine (R199). The step ends and the error goes to the host; nothing is
saved and nothing changes (R78), control goes nowhere inside the machine, and there is no return from it (R200). -/
def raise (f : Fault) : Result := .fault f

end Sys2Proof.Machine
end

