-- ==== Sys2Proof/Machine/Flags.lean ====
section
/-! DEFINITION. Results and flags of the arithmetic (41_arithmetic_logic.md R90): computed on unbounded integers, then
narrowed. A flag is the byte 0 or 1 (R12). The flag is written to VF last (R91). -/

namespace Sys2Proof.Machine

open Sys2Proof

/-- A truth value as the flag byte 0x00 or 0x01 (R12). -/
def flagByte (c : Bool) : Byte := if c then 1#8 else 0#8

/-- (a + b) mod 256 (R90). -/
def add8 (a b : Byte) : Byte := BitVec.ofNat 8 (a.toNat + b.toNat)

/-- (a - b) mod 256, the non-negative remainder (R90, R6). -/
def sub8 (a b : Byte) : Byte := BitVec.ofInt 8 ((a.toNat : Int) - (b.toNat : Int))

/-- a >> 1 (R100). -/
def shr8 (a : Byte) : Byte := BitVec.ofNat 8 (a.toNat / 2)

/-- (a << 1) mod 256 (R102). -/
def shl8 (a : Byte) : Byte := BitVec.ofNat 8 (a.toNat * 2)

/-- Carry: the sum exceeds 255 (R98). -/
def carryFlag (a b : Byte) : Byte := flagByte (decide (a.toNat + b.toNat > 255))

/-- a > b, strict: equal operands give 0 (R99, R101, G9). -/
def greaterFlag (a b : Byte) : Byte := flagByte (decide (a.toNat > b.toNat))

/-- Bit 0 of a (R100). -/
def bit0Flag (a : Byte) : Byte := flagByte (a.getLsbD 0)

/-- Bit 7 of a (R102). -/
def bit7Flag (a : Byte) : Byte := flagByte (a.getLsbD 7)

/-- (I + b) mod 4096 (R131, D5). -/
def addIndex (i : Addr) (b : Byte) : Addr := BitVec.ofNat 12 (i.toNat + b.toNat)

/-- I + b passes 0xFFF (R131). -/
def indexCarryFlag (i : Addr) (b : Byte) : Byte := flagByte (decide (i.toNat + b.toNat > 0xFFF))

/-- Write the result to V[X], then the flag to VF, last (R91): with X = 15 the flag replaces the result. -/
def writeResultThenFlag (x : Nibble) (result flag : Byte) (s : State) : State :=
  s |> writeV x result |> writeV vf flag

/-- The end of a skip instruction (R75): PC + 4 if the condition holds, else PC + 2. What is skipped is not looked at. -/
def skipIf (c : Bool) (s : State) : State := advance (if c then 4 else 2) s

end Sys2Proof.Machine
end

