-- ==== Sys2Proof/Machine/Cycle.lean ====
section
/-! DEFINITION. The phases of a step around the instruction (40_step_cycle.md R71): the fetch (R72), the decode (R73) and
the timer tick (R76). -/

namespace Sys2Proof.Machine

open Sys2Proof

/-- Phase 1 (R72, R34): the opcode at PC and (PC + 1) mod 4096, big-endian. It never fails, whatever PC is (R35). -/
def fetch (s : State) : Word := opcodeOfBytes (memRead s.pc.toNat s) (memRead (s.pc.toNat + 1) s)

/-- Phases 1 and 2: the instruction at PC, or the decode error (R55, R56). -/
def fetchDecode (s : State) : Except DecodeError Instr := decode (fetch s)

/-- A timer's count after a tick: one less, and 0 stays 0 (R76). -/
def countDown (t : Byte) : Byte := if t.toNat > 0 then BitVec.ofNat 8 (t.toNat - 1) else 0#8

/-- Phase 5 (R76): both timers count down; TONE is 1 exactly when ST was 1. -/
def tick (s : State) : State :=
  s |> writeDt (countDown s.dt) |> setTone (s.st == 1#8) |> writeSt (countDown s.st)

/-- The end of a step: a step that raised no error ticks, blocked steps included (R76, R79); an error step changes nothing
(R78). -/
def endStep (r : Result) : Result :=
  match r with
  | .next s => .next (tick s)
  | .fault f => .fault f
  | .refused q => .refused q

/-- The error a decode error raises (R191): the raw opcode is carried. -/
def raiseDecode (e : DecodeError) : Result :=
  match e with
  | .unknownOpcode op => raise (.unknownOpcode op)

end Sys2Proof.Machine
end

