-- ==== Sys2Proof/Machine/Arith.lean ====
section
/-! DEFINITION. The arithmetic, logic and register-transfer instructions (41_arithmetic_logic.md). All are sequential: each
ends with advance(2); none reads or writes memory or raises an error. -/

namespace Sys2Proof.Machine

open Sys2Proof

/-- 6XNN `LD Vx,NN` (R92). -/
def execLdImm (x : Nibble) (nn : Byte) (s : State) : Result :=
  s |> writeV x nn |> advance 2 |> completed

/-- 7XNN `ADD Vx,NN` (R93): VF is not written as a flag. -/
def execAddImm (x : Nibble) (nn : Byte) (s : State) : Result :=
  s |> writeV x (add8 (readV x s) nn) |> advance 2 |> completed

/-- 8XY0 `LD Vx,Vy` (R94). -/
def execLdReg (x y : Nibble) (s : State) : Result :=
  s |> writeV x (readV y s) |> advance 2 |> completed

/-- 8XY1 `OR Vx,Vy` (R95): VF is not written as a flag. -/
def execOrReg (x y : Nibble) (s : State) : Result :=
  s |> writeV x (readV x s ||| readV y s) |> advance 2 |> completed

/-- 8XY2 `AND Vx,Vy` (R96): VF is not written as a flag. -/
def execAndReg (x y : Nibble) (s : State) : Result :=
  s |> writeV x (readV x s &&& readV y s) |> advance 2 |> completed

/-- 8XY3 `XOR Vx,Vy` (R97): VF is not written as a flag. -/
def execXorReg (x y : Nibble) (s : State) : Result :=
  s |> writeV x (readV x s ^^^ readV y s) |> advance 2 |> completed

/-- 8XY4 `ADD Vx,Vy` (R98): VF = carry. -/
def execAddReg (x y : Nibble) (s : State) : Result :=
  s |> writeResultThenFlag x (add8 (readV x s) (readV y s)) (carryFlag (readV x s) (readV y s)) |> advance 2 |> completed

/-- 8XY5 `SUB Vx,Vy` (R99): VF = V[X] > V[Y]. -/
def execSubReg (x y : Nibble) (s : State) : Result :=
  s |> writeResultThenFlag x (sub8 (readV x s) (readV y s)) (greaterFlag (readV x s) (readV y s)) |> advance 2
    |> completed

/-- 8XY6 `SHR Vx` (R100): VF = old bit 0 of V[X]; V[Y] is neither read nor written. -/
def execShr (x _y : Nibble) (s : State) : Result :=
  s |> writeResultThenFlag x (shr8 (readV x s)) (bit0Flag (readV x s)) |> advance 2 |> completed

/-- 8XY7 `SUBN Vx,Vy` (R101): VF = V[Y] > V[X]. -/
def execSubnReg (x y : Nibble) (s : State) : Result :=
  s |> writeResultThenFlag x (sub8 (readV y s) (readV x s)) (greaterFlag (readV y s) (readV x s)) |> advance 2
    |> completed

/-- 8XYE `SHL Vx` (R102): VF = old bit 7 of V[X]; V[Y] is neither read nor written. -/
def execShl (x _y : Nibble) (s : State) : Result :=
  s |> writeResultThenFlag x (shl8 (readV x s)) (bit7Flag (readV x s)) |> advance 2 |> completed

end Sys2Proof.Machine
end

