-- ==== Sys2Proof/Machine/Operands.lean ====
section
/-! DEFINITION. The operand forms of the instruction set: computed addresses (R129), the computed jump target (R118), the
glyph address (R132), and the selection of a key (R149, R155). Register operands are readV, literals stand for
themselves (R53). -/

namespace Sys2Proof.Machine

open Sys2Proof

/-- The address of the k-th byte of an instruction's transfer through I, before reduction: I + k (R129). memRead and
memWrite reduce it modulo 4096. -/
def indexed (k : Nat) (s : State) : Nat := s.i.toNat + k

/-- The value of I after a transfer of n bytes: (I + n) mod 4096 (R134, R135, D5). -/
def indexPast (n : Nat) (s : State) : Addr := BitVec.ofNat 12 (s.i.toNat + n)

/-- NNN + V0, reduced modulo 4096 (R118, D6). -/
def jumpTarget (nnn : Addr) (s : State) : Addr := BitVec.ofNat 12 (nnn.toNat + (readV 0#4 s).toNat)

/-- V[X] * 5: the address of the glyph, FONT_BASE being 0 (R132). The whole byte is multiplied. -/
def glyphAddr (b : Byte) : Addr := BitVec.ofNat 12 (b.toNat * Config.glyphLen)

/-- V[X] mod 16: the key a key instruction tests (R149, D10). -/
def keySelect (b : Byte) : Nibble := BitVec.ofNat 4 (b.toNat % 16)

/-- The smallest k with KEY[k] = 1, if some key is pressed (R155, D11). -/
def lowestKey (s : State) : Option Nibble :=
  ((List.range 16).map (BitVec.ofNat 4)).find? (fun k => keyPressed k s)

/-- The three decimal digits of a byte: hundreds, tens, units (R133). -/
def hundreds (b : Byte) : Byte := BitVec.ofNat 8 (b.toNat / 100)
/-- See hundreds. -/
def tens (b : Byte) : Byte := BitVec.ofNat 8 (b.toNat / 10 % 10)
/-- See hundreds. -/
def units (b : Byte) : Byte := BitVec.ofNat 8 (b.toNat % 10)

end Sys2Proof.Machine
end

