-- ==== Sys2Proof/Machine/Control.lean ====
section
/-! DEFINITION. The control-transfer instructions (42_control_flow.md). None writes a V register. `CALL` and `RET` are the
only instructions that can raise an error, and they raise it before any write (R78). -/

namespace Sys2Proof.Machine

open Sys2Proof

/-- 00EE `RET` (R111): the popped PC is the address of the CALL, and advances normally (C9). -/
def execRet (s : State) : Result :=
  match popPc s with
  | none => raise .stackUnderflow
  | some t => t |> advance 2 |> completed

/-- 1NNN `JP NNN` (R112): no advance. -/
def execJp (nnn : Addr) (s : State) : Result :=
  s |> writePc nnn |> completed

/-- 2NNN `CALL NNN` (R113): pushes the address of this CALL. -/
def execCall (nnn : Addr) (s : State) : Result :=
  match pushPc s with
  | none => raise .stackOverflow
  | some t => t |> writePc nnn |> completed

/-- 3XNN `SE Vx,NN` (R114). -/
def execSeImm (x : Nibble) (nn : Byte) (s : State) : Result :=
  s |> skipIf (readV x s == nn) |> completed

/-- 4XNN `SNE Vx,NN` (R115). -/
def execSneImm (x : Nibble) (nn : Byte) (s : State) : Result :=
  s |> skipIf (readV x s != nn) |> completed

/-- 5XY0 `SE Vx,Vy` (R116). -/
def execSeReg (x y : Nibble) (s : State) : Result :=
  s |> skipIf (readV x s == readV y s) |> completed

/-- 9XY0 `SNE Vx,Vy` (R117). -/
def execSneReg (x y : Nibble) (s : State) : Result :=
  s |> skipIf (readV x s != readV y s) |> completed

/-- BNNN `JP V0,NNN` (R118): always V0, whatever the X nibble of NNN is. -/
def execJpV0 (nnn : Addr) (s : State) : Result :=
  s |> writePc (jumpTarget nnn s) |> completed

end Sys2Proof.Machine
end

