-- ==== Sys2Proof/Machine/Devices.lean ====
section
/-! DEFINITION. The timer, keypad and random-number instructions (44_timers_keys_random.md). None accesses memory or raises
an error. The tick that follows in the same step is the step's (Machine/Cycle.lean, R76), not the instruction's. -/

namespace Sys2Proof.Machine

open Sys2Proof

/-- FX07 `LD Vx,DT` (R150): reads DT before this step's tick. -/
def execLdVxDt (x : Nibble) (s : State) : Result :=
  s |> writeV x s.dt |> advance 2 |> completed

/-- FX15 `LD DT,Vx` (R151). -/
def execLdDtVx (x : Nibble) (s : State) : Result :=
  s |> writeDt (readV x s) |> advance 2 |> completed

/-- FX18 `LD ST,Vx` (R152). -/
def execLdStVx (x : Nibble) (s : State) : Result :=
  s |> writeSt (readV x s) |> advance 2 |> completed

/-- EX9E `SKP Vx` (R153). -/
def execSkp (x : Nibble) (s : State) : Result :=
  s |> skipIf (keyPressed (keySelect (readV x s)) s) |> completed

/-- EXA1 `SKNP Vx` (R154). -/
def execSknp (x : Nibble) (s : State) : Result :=
  s |> skipIf (!keyPressed (keySelect (readV x s)) s) |> completed

/-- FX0A `LD Vx,K` (R155): with no key pressed no effect and outcome Blocked, else the lowest pressed key. -/
def execLdVxK (x : Nibble) (s : State) : Result :=
  match lowestKey s with
  | none => blocked s
  | some k => s |> writeV x (k.setWidth 8) |> advance 2 |> completed

/-- CXNN `RND Vx,NN` (R156): a fresh free byte, masked. -/
def execRnd (x : Nibble) (nn : Byte) (s : State) : Result :=
  s |> consumeRnd |> writeV x (rndByte s &&& nn) |> advance 2 |> completed

end Sys2Proof.Machine
end

