-- ==== Sys2Proof/Machine/Display.lean ====
section
/-! DEFINITION. The display instructions (45_display.md). The draw is the loop of R173: rows r, then columns c, each pixel
coordinate reduced modulo the grid on its own. -/

namespace Sys2Proof.Machine

open Sys2Proof

/-- One 1 bit of the sprite at the pixel (px, py): note a collision if the pixel is set, then flip it (R173). The pair is
the buffer and the collision seen so far (`hit`). -/
def plotBit (px py : Nat) (acc : FrameBuffer × Bool) : FrameBuffer × Bool :=
  (FrameBuffer.flip acc.1 px py, acc.2 || FrameBuffer.get acc.1 px py)

/-- One row byte b of the sprite, its leftmost pixel at column x0: bit 7 - c is column offset c (R171, D8). -/
def plotRow (x0 py : Nat) (b : Byte) (acc : FrameBuffer × Bool) : FrameBuffer × Bool :=
  (List.range 8).foldl (fun acc c => if b.getLsbD (7 - c) then plotBit (x0 + c) py acc else acc) acc

/-- The n rows of the sprite at I, its top-left pixel at (x0, y0), drawn onto the display of s (R173). -/
def plotSprite (x0 y0 n : Nat) (s : State) : FrameBuffer × Bool :=
  (List.range n).foldl (fun acc r => plotRow x0 (y0 + r) (memRead (indexed r s) s) acc) (s.fb, false)

/-- 00E0 `CLS` (R172): VF is not written. -/
def execCls (s : State) : Result :=
  s |> writeFb FrameBuffer.clear |> markRedraw |> advance 2 |> completed

/-- DXYN `DRW Vx,Vy,N` (R173): the origin is read before VF is written; VF is always written, last; DRAW_FLAG is always
set. -/
def execDrw (x y n : Nibble) (s : State) : Result :=
  s |> writeFb (plotSprite (readV x s).toNat (readV y s).toNat n.toNat s).1
    |> writeV vf (flagByte (plotSprite (readV x s).toNat (readV y s).toNat n.toNat s).2)
    |> markRedraw |> advance 2 |> completed

end Sys2Proof.Machine
end

