-- ==== Sys2Proof/Machine/Index.lean ====
section
/-! DEFINITION. The index-register and memory-transfer instructions (43_memory_index.md). All are sequential; none raises
an error. Every byte's address is reduced modulo 4096 on its own (R33, R129). -/

namespace Sys2Proof.Machine

open Sys2Proof

/-- The loop of R134: for k in 0 .. n-1, MemWrite(I + k, V[k]), with I and V the values in s. -/
def storeV (n : Nat) (s : State) : State :=
  (List.range n).foldl (fun t k => memWrite (indexed k s) (readV (BitVec.ofNat 4 k) s) t) s

/-- The loop of R135: for k in 0 .. n-1, V[k] <- MemRead(I + k), with I the value in s. -/
def loadV (n : Nat) (s : State) : State :=
  (List.range n).foldl (fun t k => writeV (BitVec.ofNat 4 k) (memRead (indexed k s) s) t) s

/-- ANNN `LD I,NNN` (R130). -/
def execLdI (nnn : Addr) (s : State) : Result :=
  s |> writeI nnn |> advance 2 |> completed

/-- FX1E `ADD I,Vx` (R131): VF is written on every execution, last. -/
def execAddI (x : Nibble) (s : State) : Result :=
  s |> writeI (addIndex s.i (readV x s)) |> writeV vf (indexCarryFlag s.i (readV x s)) |> advance 2 |> completed

/-- FX29 `LD F,Vx` (R132). -/
def execLdF (x : Nibble) (s : State) : Result :=
  s |> writeI (glyphAddr (readV x s)) |> advance 2 |> completed

/-- FX33 `LD B,Vx` (R133): I is unchanged. -/
def execLdB (x : Nibble) (s : State) : Result :=
  s |> memWrite (indexed 0 s) (hundreds (readV x s)) |> memWrite (indexed 1 s) (tens (readV x s))
    |> memWrite (indexed 2 s) (units (readV x s)) |> advance 2 |> completed

/-- FX55 `LD [I],Vx` (R134). -/
def execStoreRegs (x : Nibble) (s : State) : Result :=
  s |> storeV (x.toNat + 1) |> writeI (indexPast (x.toNat + 1) s) |> advance 2 |> completed

/-- FX65 `LD Vx,[I]` (R135). -/
def execLoadRegs (x : Nibble) (s : State) : Result :=
  s |> loadV (x.toNat + 1) |> writeI (indexPast (x.toNat + 1) s) |> advance 2 |> completed

end Sys2Proof.Machine
end

