-- ==== Sys2Proof/Machine/Step.lean ====
section
/-! DEFINITION. One step of the core (40_step_cycle.md R71): fetch, decode, execute with the PC change, tick. -/

namespace Sys2Proof.Machine

open Sys2Proof

/-- `step()` (R71). A raised error abandons the step with nothing changed (R78). -/
def step (s : State) : Host.Outcome State Fault Refusal :=
  match fetchDecode s with
  | .ok i => endStep (exec i s)
  | .error e => raiseDecode e

/-- s with the instruction of a table word stored where step fetches it: the word is the 16-bit opcode, its high byte at
PC and its low byte at PC + 1 (R34). Nothing else changes (log 16). -/
def State.withFetchWord (s : State) (nbits w : Nat) : State :=
  let op : Word := BitVec.ofNat 16 (w % 2 ^ nbits)
  s |> memWrite s.pc.toNat (highByte op) |> memWrite (s.pc.toNat + 1) (lowByte op)

end Sys2Proof.Machine
end

