-- ==== Sys2Proof/Machine/HostPort.lean ====
section
/-! DEFINITION. The host's side of the core (60_exceptions.md R203 to R207, 70_reset_and_hazards.md R220 to R224): the
operations the Loader, the Input Source and the Display Sink perform between steps (R39, D17), what they may read, and the
numeric cause codes (R195). None is an instruction, and no instruction does any of this. -/

namespace Sys2Proof.Machine

open Sys2Proof

/-- The Loader's status (R195): the spec's own codes, see loadCode. -/
inductive LoadStatus where
  /-- The image was written. -/
  | ok
  /-- `LoadError::ProgramTooLarge`: length 3584 or more; state unchanged (R194). -/
  | programTooLarge
  /-- `LoadError::SourceUnavailable`: the byte source failed; state unchanged (R194). -/
  | sourceUnavailable
  deriving DecidableEq, Repr

/-- The bytes stored at consecutive addresses from a. -/
def storeImage : List Byte → Nat → State → State
  | [], _, s => s
  | b :: bs, a, s => storeImage bs (a + 1) (memWrite a b s)

/-- The machine after reset for the parameter FONT (R5, R25, D15): the font's 80 bytes at address 0, every other element at
its reset value. With the default FONT it is State.reset. -/
def resetWith (font : Font) : State := storeImage font.toList Config.fontBase State.reset

/-- `reset()` (R220) of the machine with the parameter FONT: every element of the spec's state at its reset value, whatever
it was (R221). The draw counter is kept, so that the bytes drawn after a reset are not forced to repeat those drawn before
it (log 8). -/
def hostReset (font : Font) (s : State) : State := { resetWith font with rndIndex := s.rndIndex }

/-- `load(bytes)` (R223): fewer than 3584 bytes go to 0x200 upward and nothing else changes; more are rejected and nothing
changes. It does not reset. -/
def load (bytes : List Byte) (s : State) : LoadStatus × State :=
  if bytes.length < Config.loadLimit then (.ok, storeImage bytes Config.progBase s) else (.programTooLarge, s)

/-- `load` from a byte source that may fail (R204): none is a source whose bytes cannot be obtained. -/
def loadFrom (source : Option (List Byte)) (s : State) : LoadStatus × State :=
  match source with
  | none => (.sourceUnavailable, s)
  | some bytes => load bytes s

/-- A key-down event: KEY[k] <- 1 (R206). -/
def keyDown (k : Nibble) (s : State) : State := { s with key := s.key.set k.toNat true k.isLt }

/-- A key-up event: KEY[k] <- 0 (R206). -/
def keyUp (k : Nibble) (s : State) : State := { s with key := s.key.set k.toNat false k.isLt }

/-- The Display Sink clears DRAW_FLAG after consuming it (R205). -/
def ackRedraw (s : State) : State := { s with drawFlag := false }

/-- What the Display Sink reads: the bits of FB in row-major order, flat index y * 64 + x (R19, D25), and DRAW_FLAG. -/
def displayPort (s : State) : List Bool × Bool := ((s.fb.toList.map Vector.toList).flatten, s.drawFlag)

/-- The cause code of a step's error (R195, D14); 0 is no error. -/
def faultCode (f : Option Fault) : Nat :=
  match f with
  | none => 0
  | some (.unknownOpcode _) => 1
  | some .stackOverflow => 2
  | some .stackUnderflow => 3

/-- The opcode presented alongside the code 1 (R195). -/
def faultOpcode (f : Option Fault) : Option Word :=
  match f with
  | some (.unknownOpcode op) => some op
  | _ => none

/-- The Loader's status code (R195, D14). -/
def loadCode (l : LoadStatus) : Nat :=
  match l with
  | .ok => 0
  | .programTooLarge => 1
  | .sourceUnavailable => 2

end Sys2Proof.Machine
end

