-- ==== Sys2Proof/Machine/Session.lean ====
section
/-! DEFINITION. What the host sees: the report of a step (40_step_cycle.md R77) and a whole session of host events
(60_exceptions.md R203, 70_reset_and_hazards.md R224). An error leaves the state as it was (R78), and the host may stop,
reset, or step again (R200); it has no way to skip an instruction (D22). -/

namespace Sys2Proof.Machine

open Sys2Proof

/-- The outcome a step reports to the host (R77). -/
inductive StepReport where
  /-- An instruction executed; with the TONE output of the step. -/
  | completed (tone : Bool)
  /-- `LD Vx,K` with no key pressed; with the TONE output of the step. -/
  | blocked (tone : Bool)
  /-- An error: no state changed, TONE = 0. -/
  | error (f : Fault)
  /-- The model gives the fetched instruction no meaning (it never happens: every instruction has one). -/
  | refused (q : Refusal)
  deriving DecidableEq, Repr

/-- The TONE output of a step (R76, R78): 0 in an error step. -/
def reportedTone (r : StepReport) : Bool :=
  match r with
  | .completed t => t
  | .blocked t => t
  | .error _ => false
  | .refused _ => false

/-- One `step()` as the host sees it: the report and the state after it (R77, R78). -/
def hostStep (s : State) : StepReport × State :=
  match step s with
  | .next t => (match t.outcome with | .completed => .completed t.tone | .blocked => .blocked t.tone, t)
  | .fault f => (.error f, s)
  | .refused q => (.refused q, s)

/-- What the host may do between or as steps (R203). Supplying the random byte is the free value of Config. -/
inductive HostEvent where
  /-- `reset()`. -/
  | reset
  /-- `load` from a byte source (none: it fails). -/
  | load (source : Option (List Byte))
  /-- Key-down of key k. -/
  | keyDown (k : Nibble)
  /-- Key-up of key k. -/
  | keyUp (k : Nibble)
  /-- The Display Sink clears DRAW_FLAG. -/
  | ackRedraw
  /-- `step()`. -/
  | step
  deriving DecidableEq, Repr

/-- What the core answers to a host event. -/
inductive HostReply where
  /-- The event has no answer. -/
  | done
  /-- The Loader's status. -/
  | loaded (l : LoadStatus)
  /-- The step's report. -/
  | stepped (r : StepReport)
  deriving DecidableEq, Repr

/-- One host event (R203), of the machine with the parameter FONT, which reset copies into memory. -/
def hostApply (font : Font) (e : HostEvent) (s : State) : HostReply × State :=
  match e with
  | .reset => (.done, hostReset font s)
  | .load src => (.loaded (loadFrom src s).1, (loadFrom src s).2)
  | .keyDown k => (.done, keyDown k s)
  | .keyUp k => (.done, keyUp k s)
  | .ackRedraw => (.done, ackRedraw s)
  | .step => (.stepped (hostStep s).1, (hostStep s).2)

/-- A session: host events in order, with the replies (R38, R39: one total order). It is the ports of R203 one by one, from
any state; a load that is rejected in it changes nothing (R223) and the events after it are answered from that state, which
is the model's choice (log 24). The launch of a program is `boot`, which refuses an image that does not fit. -/
def session (font : Font) : List HostEvent → State → List HostReply × State
  | [], s => ([], s)
  | e :: es, s =>
    let r := hostApply font e s
    let rest := session font es r.2
    (r.1 :: rest.1, rest.2)

/-- What may follow a successful load in a run (R224): steps, with Input Source and Display Sink actions between them. -/
inductive RunEvent where
  /-- Key-down of key k. -/
  | keyDown (k : Nibble)
  /-- Key-up of key k. -/
  | keyUp (k : Nibble)
  /-- The Display Sink clears DRAW_FLAG. -/
  | ackRedraw
  /-- `step()`. -/
  | step
  deriving DecidableEq, Repr

/-- An event of a run as a host event. -/
def runEvent (e : RunEvent) : HostEvent :=
  match e with
  | .keyDown k => .keyDown k
  | .keyUp k => .keyUp k
  | .ackRedraw => .ackRedraw
  | .step => .step

/-- The boot sequence (R224) of the machine with the parameter FONT: reset, load with success, then the events of the run, with their replies. A run begins with a
reset (R222, D23). A launch whose image does not fit is refused with the Loader's status: no run is defined for it (R194,
U13), so there is no state and no event to answer (log 18). -/
def boot (font : Font) (image : List Byte) (events : List RunEvent) :
    Except LoadStatus (List HostReply × State) :=
  match load image (resetWith font) with
  | (.ok, s) => .ok (session font (events.map runEvent) s)
  | (.programTooLarge, _) => .error .programTooLarge
  | (.sourceUnavailable, _) => .error .sourceUnavailable

end Sys2Proof.Machine
end

