-- ==== Sys2Proof/Safety.lean ====
section
/-! DEFINITION. What counts as a safe run (40_step_cycle.md R81, 92_eei_decisions.md D22), the invariants of the machine
(10_state.md R26), and the frame relations the statements are written with. -/

namespace Sys2Proof.Machine

open Sys2Proof

/-! ### Runs (R81) -/

/-- k steps, stopping at the first error (R200: in a model an error ends the run). -/
def steps : Nat → State → Result
  | 0, s => .next s
  | k + 1, s =>
    match step s with
    | .next t => steps k t
    | .fault f => .fault f
    | .refused q => .refused q

/-- The run of k steps from s raises no error. -/
def Safe (k : Nat) (s : State) : Prop := ∃ t, steps k s = .next t

/-- The good end of a run by convention: the machine stands at a jump to itself (R81, R59). -/
def AtSelfJump (s : State) : Prop := fetchDecode s = .ok (.jp s.pc)

/-! ### Invariants -/

/-- The machine waits for a key: no key is pressed and `LD Vx,K` stands at PC (R155). -/
def Waiting (s : State) : Prop := (∃ x, fetchDecode s = .ok (.ldVxK x)) ∧ ∀ k, keyPressed k s = false

/-- What every step keeps: the memory is in canonical form (so each cell is one byte at one of the 4096 addresses, R26,
R30; the other ranges of R26 are the types of State), a TONE has just taken ST to 0 (R76), and `blocked` is reported only
while waiting for a key (R77, R79). -/
structure Inv (s : State) : Prop where
  memory : Memory.wf s.mem
  toneAtZero : s.tone = true → s.st = 0#8
  blockedWaits : s.outcome = .blocked → Waiting s

/-! ### Frames: what is unchanged between two states -/

/-- The byte at an address. -/
def byteAt (a : Addr) (s : State) : Byte := memRead a.toNat s

/-- Every byte of memory reads as before. -/
def SameMem (s t : State) : Prop := ∀ a, byteAt a t = byteAt a s
/-- Every general register reads as before. -/
def SameV (s t : State) : Prop := ∀ k, readV k t = readV k s
/-- I is unchanged. -/
def SameI (s t : State) : Prop := t.i = s.i
/-- The call stack and SP are unchanged. -/
def SameStack (s t : State) : Prop := t.stack = s.stack ∧ t.sp = s.sp
/-- Both timers are unchanged. -/
def SameTimers (s t : State) : Prop := t.dt = s.dt ∧ t.st = s.st
/-- FB and DRAW_FLAG are unchanged. -/
def SameDisplay (s t : State) : Prop := t.fb = s.fb ∧ t.drawFlag = s.drawFlag
/-- KEY is unchanged. -/
def SameKeys (s t : State) : Prop := t.key = s.key
/-- The model's draw counter and TONE latch are unchanged. -/
def SameModel (s t : State) : Prop := t.rndIndex = s.rndIndex ∧ t.tone = s.tone

/-- Nothing but V, PC and the reported outcome may differ. -/
def OnlyRegisters (s t : State) : Prop :=
  SameMem s t ∧ SameI s t ∧ SameStack s t ∧ SameTimers s t ∧ SameDisplay s t ∧ SameKeys s t ∧ SameModel s t

/-- Nothing but PC and the reported outcome may differ. -/
def OnlyPc (s t : State) : Prop := SameV s t ∧ OnlyRegisters s t

/-- Nothing but I, PC and the reported outcome may differ. -/
def OnlyIndex (s t : State) : Prop :=
  SameV s t ∧ SameMem s t ∧ SameStack s t ∧ SameTimers s t ∧ SameDisplay s t ∧ SameKeys s t ∧ SameModel s t

/-- PC after advance(n): (PC + n) mod 4096 (R75; the reduction is D6). -/
def Advanced (n : Nat) (s t : State) : Prop := t.pc.toNat = (s.pc.toNat + n) % 4096

/-- PC after a skip instruction: + 4 if the condition holds, else + 2 (R75). -/
def Skipped (c : Prop) (s t : State) : Prop := (c → Advanced 4 s t) ∧ (¬c → Advanced 2 s t)

/-- The instruction reports Completed (R77). -/
def Completed (t : State) : Prop := t.outcome = .completed

/-- V[x] holds b (reduced to 8 bits by the caller) and every other register is as before. -/
def WritesV (x : Nibble) (b : Nat) (s t : State) : Prop :=
  (readV x t).toNat = b ∧ ∀ k, k ≠ x → readV k t = readV k s

/-- VF holds the flag, V[x] the result if it is not VF, and every other register is as before (R91: flag last). -/
def WritesVThenFlag (x : Nibble) (result : Nat) (flag : Prop) (s t : State) : Prop :=
  (flag → readV vf t = 1#8) ∧ (¬flag → readV vf t = 0#8) ∧ (x ≠ vf → (readV x t).toNat = result) ∧
  ∀ k, k ≠ x → k ≠ vf → readV k t = readV k s

/-- The registers an instruction may write (R11, R12): its destination, the flag register VF for the seven instructions of
R12, and V0 to Vx for `LD Vx,[I]`. -/
def mayWriteV (i : Instr) (k : Nibble) : Bool :=
  match i with
  | .cls | .ret | .jp _ | .call _ | .seImm _ _ | .sneImm _ _ | .seReg _ _ | .sneReg _ _ | .ldI _ | .jpV0 _ | .skp _
  | .sknp _ | .ldDtVx _ | .ldStVx _ | .ldF _ | .ldB _ | .storeRegs _ => false
  | .ldImm x _ | .addImm x _ | .ldReg x _ | .orReg x _ | .andReg x _ | .xorReg x _ | .rnd x _ | .ldVxDt x
  | .ldVxK x => k == x
  | .addReg x _ | .subReg x _ | .shr x _ | .subnReg x _ | .shl x _ => k == x || k == vf
  | .drw _ _ _ | .addI _ => k == vf
  | .loadRegs x => decide (k.toNat ≤ x.toNat)

/-! ### The sprite of a draw, pixel by pixel (R173) -/

/-- The display pixel (px, py) lies under a 1 bit of the n-row sprite at I drawn with its origin at (x0, y0). -/
def UnderSprite (s : State) (x0 y0 n px py : Nat) : Prop :=
  ∃ r c, r < n ∧ c < 8 ∧ (memRead (s.i.toNat + r) s).getLsbD (7 - c) = true ∧ px = (x0 + c) % 64 ∧ py = (y0 + r) % 32

end Sys2Proof.Machine
end

