-- ==== Sys2Proof/Certificates/Slice0/Obligations.lean ====
section
/-! DEFINITION. The statements for the provers. Each docstring names the rule or section of spec/ the statement comes
from. Where a clause rests on a decision the spec marks as its own (D<n> of 92_eei_decisions.md), the docstring says so and
names the log entry (notes/assumptions/<n>.md); such a statement is derived. PC's reduction modulo 4096 (`Advanced`,
`Skipped`) is the spec's decision D6, log 3, wherever it appears. -/

open Sys2Proof Sys2Proof.Machine

/-! ### Encoding (30_encoding.md) -/

/-- Every well-formed instruction, at every value of its operands, is decoded from its own opcode and from its own two
bytes (R52, R54, R55; the patterns are D2, log 1). -/
def Obligations.DecodeEncodeRoundTrip : Prop :=
  ∀ i : Instr, i.wf = true →
    decode (encode i) = .ok i ∧ decodeBytes (highByte (encode i)) (lowByte (encode i)) = .ok i

/-- An opcode that decodes is the encoding of what it decodes to: no bit is dropped (R51; the patterns are D2, log 1). -/
def Obligations.EncodeInvertsDecode : Prop :=
  ∀ (op : Word) (i : Instr), decode op = .ok i → encode i = op

/-- The decode algorithm of R55 and the mask-and-match table of R54 agree, both ways (D2, log 1). -/
def Obligations.DecodeAgreesWithOpcodeMap : Prop :=
  ∀ op : Word,
    (∀ i, decode op = .ok i → ∃ r ∈ opcodeTable, r.mnemonic = mnemonicOf i ∧ r.selects op = true) ∧
    (∀ r ∈ opcodeTable, r.selects op = true → ∃ i, decode op = .ok i ∧ mnemonicOf i = r.mnemonic)

/-- No opcode selects two rows of R54 (R55: exactly one row matches, or none; D2, log 1). -/
def Obligations.OpcodeRowsDisjoint : Prop :=
  ∀ (op : Word) (r q : OpcodeRow), r ∈ opcodeTable → q ∈ opcodeTable → r.selects op = true → q.selects op = true → r = q

/-- The undefined opcodes are exactly those of the table in R56, and a decode error always carries the opcode itself
(strict decoding is D3, log 2). -/
def Obligations.UndefinedOpcodesExactly : Prop :=
  ∀ op : Word,
    (∀ e, decode op = .error e → e = .unknownOpcode op) ∧
    (decode op = .error (.unknownOpcode op) ↔
      (op.toNat / 4096 = 0x0 ∧ op ≠ 0x00E0#16 ∧ op ≠ 0x00EE#16) ∨
      (op.toNat / 4096 = 0x5 ∧ op.toNat % 16 ≠ 0) ∨
      (op.toNat / 4096 = 0x8 ∧ op.toNat % 16 ∈ [0x8, 0x9, 0xA, 0xB, 0xC, 0xD, 0xF]) ∨
      (op.toNat / 4096 = 0x9 ∧ op.toNat % 16 ≠ 0) ∨
      (op.toNat / 4096 = 0xE ∧ op.toNat % 256 ∉ [0x9E, 0xA1]) ∨
      (op.toNat / 4096 = 0xF ∧ op.toNat % 256 ∉ [0x07, 0x0A, 0x15, 0x18, 0x1E, 0x29, 0x33, 0x55, 0x65]))

/-- A word of each of the sixteen families (the top 4 bits, R51) decodes to the instruction it stands for: the five patterns
the source shows (R60), and words of every other family of R54 (D2, log 1). -/
def Obligations.SampleWordsDecode : Prop :=
  decode 0x00E0#16 = .ok .cls ∧ decode 0x1200#16 = .ok (.jp 0x200#12) ∧ decode 0x6A05#16 = .ok (.ldImm 0xA#4 0x05#8) ∧
  decode 0xFA29#16 = .ok (.ldF 0xA#4) ∧ decode 0xFA33#16 = .ok (.ldB 0xA#4) ∧
  decode 0x8AB4#16 = .ok (.addReg 0xA#4 0xB#4) ∧ decode 0xD3A5#16 = .ok (.drw 0x3#4 0xA#4 0x5#4) ∧
  decode 0xC30F#16 = .ok (.rnd 0x3#4 0x0F#8) ∧ decode 0xE19E#16 = .ok (.skp 0x1#4) ∧
  decode 0x2300#16 = .ok (.call 0x300#12) ∧ decode 0x3A05#16 = .ok (.seImm 0xA#4 0x05#8) ∧
  decode 0x4A05#16 = .ok (.sneImm 0xA#4 0x05#8) ∧ decode 0x5120#16 = .ok (.seReg 0x1#4 0x2#4) ∧
  decode 0x7005#16 = .ok (.addImm 0x0#4 0x05#8) ∧ decode 0x9120#16 = .ok (.sneReg 0x1#4 0x2#4) ∧
  decode 0xA2F0#16 = .ok (.ldI 0x2F0#12) ∧ decode 0xB300#16 = .ok (.jpV0 0x300#12)

/-! ### The step (40_step_cycle.md) -/

/-- A step runs the decoded instruction: when the opcode at PC decodes to i, the step is exec of i at that state, followed by
the tick when exec answers a next state, and exec's error when it raises one (it refuses nothing); when nothing is decoded
the step raises UnknownOpcode (R71). -/
def Obligations.StepRunsDecodedInstruction : Prop :=
  ∀ s : State,
    (∀ i, decode (fetch s) = .ok i →
      (∀ u, exec i s = .next u → step s = .next (tick u)) ∧ (∀ f, exec i s = .fault f → step s = .fault f) ∧
      (∀ q, exec i s ≠ .refused q)) ∧
    (∀ e, decode (fetch s) = .error e → step s = .fault (.unknownOpcode (fetch s)))

/-- The opcode is the byte at PC, then the byte at the next address, the first in the high half (R34, R72; that the next
address after 0xFFF is 0x000 is D6, log 3). -/
def Obligations.FetchBigEndian : Prop :=
  ∀ s : State, (fetch s).toNat = (byteAt s.pc s).toNat * 256 + (byteAt (s.pc + 1#12) s).toNat

/-- A fetched opcode that decodes to nothing ends the step with UnknownOpcode carrying all 16 bits, and the host finds the
state, PC included, as it was (R191, R78; that it is as it was in every element is D12, log 11; the patterns are D2,
log 1). -/
def Obligations.UnknownOpcodeReported : Prop :=
  ∀ s : State, (∀ i, decode (fetch s) ≠ .ok i) →
    step s = .fault (.unknownOpcode (fetch s)) ∧ hostStep s = (.error (.unknownOpcode (fetch s)), s)

/-- CALL with SP = 16 raises StackOverflow, and the host finds the state as it was (R192, R78; that every element is as it was is D12,
log 11). -/
def Obligations.CallOnFullStackOverflows : Prop :=
  ∀ (s : State) (nnn : Addr), s.sp.val = 16 →
    exec (.call nnn) s = .fault .stackOverflow ∧
    (decode (fetch s) = .ok (.call nnn) → hostStep s = (.error .stackOverflow, s))

/-- RET with SP = 0 raises StackUnderflow, and the host finds the state as it was (R193, R78; that every element is as it was is D12,
log 11). -/
def Obligations.ReturnOnEmptyStackUnderflows : Prop :=
  ∀ s : State, s.sp.val = 0 →
    exec .ret s = .fault .stackUnderflow ∧
    (decode (fetch s) = .ok .ret → hostStep s = (.error .stackUnderflow, s))

/-- The errors of a step are exactly three: no instruction decoded, CALL on a full stack, RET on an empty one; and no step is
refused (R190, R196, R198). -/
def Obligations.StepErrorsAreExactlyThree : Prop :=
  ∀ s : State,
    (∀ f, step s = .fault f ↔
      (f = .unknownOpcode (fetch s) ∧ ∀ i, decode (fetch s) ≠ .ok i) ∨
      (f = .stackOverflow ∧ s.sp.val = 16 ∧ ∃ nnn, decode (fetch s) = .ok (.call nnn)) ∨
      (f = .stackUnderflow ∧ s.sp.val = 0 ∧ decode (fetch s) = .ok .ret)) ∧
    ∀ q, step s ≠ .refused q

/-- An error step changes nothing, gives no TONE, and is not latched: stepping again raises the same error (R78, which is
D12, log 11). -/
def Obligations.ErrorStepChangesNothing : Prop :=
  ∀ (s : State) (f : Fault), (hostStep s).1 = .error f →
    (hostStep s).2 = s ∧ reportedTone (hostStep s).1 = false ∧ hostStep (hostStep s).2 = hostStep s

/-- The tick of every step that raises no error, blocked steps included: each timer the instruction left above 0 is one
less, a timer it left at 0 stays 0, TONE is 1 exactly when the instruction left ST at 1, and the tick does nothing else
(R76; that blocked steps tick is D13, log 12, that the tick reads what the same step wrote is the spec's inference in R76). -/
def Obligations.TickEndsEveryStep : Prop :=
  ∀ s t : State, step s = .next t →
    ∃ i u, decode (fetch s) = .ok i ∧ exec i s = .next u ∧
      (u.dt.toNat > 0 → t.dt.toNat + 1 = u.dt.toNat) ∧ (u.dt.toNat = 0 → t.dt.toNat = 0) ∧
      (u.st.toNat > 0 → t.st.toNat + 1 = u.st.toNat) ∧ (u.st.toNat = 0 → t.st.toNat = 0) ∧
      (t.tone = true ↔ u.st.toNat = 1) ∧ t = { u with dt := t.dt, st := t.st, tone := t.tone }

/-! ### Reset, load, invariants (10_state.md, 70_reset_and_hazards.md) -/

/-- What reset leaves, whatever the state was: PC, I, SP, V, STACK, KEY, FB, both timers, DRAW_FLAG, and memory: the 80 font
bytes of the parameter FONT at address 0, whatever they are, zero above (R220). State.reset, the case of the default FONT,
is included for everything but the font bytes. -/
def Obligations.ResetValues : Prop :=
  ∀ (font : Font) (s : State),
    (∀ t ∈ [State.reset, resetWith font, hostReset font s],
      t.pc = 0x200#12 ∧ t.i = 0#12 ∧ t.sp.val = 0 ∧ (∀ k, readV k t = 0#8) ∧
      (∀ k, (h : k < 16) → t.stack[k] = 0#12) ∧ (∀ k, keyPressed k t = false) ∧
      (∀ x y, x < 64 → y < 32 → FrameBuffer.get t.fb x y = false) ∧
      (∀ a : Addr, 80 ≤ a.toNat → byteAt a t = 0#8) ∧ t.dt = 0#8 ∧ t.st = 0#8 ∧ t.drawFlag = true) ∧
    ∀ t ∈ [resetWith font, hostReset font s], ∀ (a : Addr) (h : a.toNat < 80), byteAt a t = font[a.toNat]

/-- Reset is idempotent, does not depend on the state before it (the model's draw counter apart), gives no TONE and erases
the program (R221). -/
def Obligations.ResetIdempotent : Prop :=
  ∀ (font : Font) (s s' : State),
    hostReset font (hostReset font s) = hostReset font s ∧
    { hostReset font s with rndIndex := 0 } = { hostReset font s' with rndIndex := 0 } ∧
    (hostReset font s).tone = false ∧ ∀ a : Addr, 0x200 ≤ a.toNat → byteAt a (hostReset font s) = 0#8

/-- The invariant of log 13 and log 19 holds after reset, with any FONT, and State.reset is the reset with the default FONT
(D15, log 5). The invariant's clauses are about the model's own representation (DESIGN CHOICE): the canonical list form of
memory (log 19), which lists nothing in State.reset and the cells that differ with another FONT, and the latches TONE
(log 13; R221: no TONE) and outcome, whose value `completed` at reset the spec does not give (log 13). The contents at
reset are those of R25. -/
def Obligations.InvariantAtReset : Prop :=
  Inv State.reset ∧ (∀ font : Font, Inv (resetWith font)) ∧ State.reset = resetWith defaultFont

/-- Every step from every state that meets the invariant leads to a state that meets it. The invariant is about the model's
own representation: memory stays in the canonical list form (DESIGN CHOICE, log 19), and the latches of the last step's
outputs (DESIGN CHOICE, log 13) say TONE only with ST at 0 (by the tick of R76) and `blocked` only while `LD Vx,K` stands at
PC with no key pressed (by R155 and R79). -/
def Obligations.InvariantKeptByStep : Prop :=
  ∀ s t : State, Inv s → step s = .next t → Inv t

/-- Whatever the host does through the ports of R203 (resets, loads, key events, acknowledgements, steps, in any order and
number), memory stays in the canonical list form. That form is the model's choice of representation (DESIGN CHOICE, log 19),
and so is that a session goes on after a rejected load (log 24). -/
def Obligations.SessionKeepsMemoryCanonical : Prop :=
  ∀ (font : Font) (es : List HostEvent) (s : State), Memory.wf s.mem → Memory.wf (session font es s).2.mem

/-- Load writes an image of fewer than 3584 bytes at 0x200 and changes nothing else; a longer one is rejected and nothing
changes (R223; the strict bound is D21, log 18). -/
def Obligations.LoadWritesImage : Prop :=
  ∀ (bytes : List Byte) (s : State),
    (bytes.length < 3584 →
      (load bytes s).1 = .ok ∧
      (∀ j, (h : j < bytes.length) → byteAt (BitVec.ofNat 12 (0x200 + j)) (load bytes s).2 = bytes[j]) ∧
      (∀ a : Addr, a.toNat < 0x200 ∨ 0x200 + bytes.length ≤ a.toNat → byteAt a (load bytes s).2 = byteAt a s) ∧
      (load bytes s).2 = { s with mem := (load bytes s).2.mem }) ∧
    (3584 ≤ bytes.length → load bytes s = (.programTooLarge, s))

/-! ### Arithmetic, logic, register transfer (41_arithmetic_logic.md) -/

/-- LD Vx,NN and LD Vx,Vy write Vx, VF included as an ordinary destination, and nothing else but PC (R92, R94; PC's wrap is
D6, log 3). -/
def Obligations.LoadRegisterResult : Prop :=
  ∀ (x y : Nibble) (nn : Byte) (s : State),
    (∃ t, exec (.ldImm x nn) s = .next t ∧ WritesV x nn.toNat s t ∧ OnlyRegisters s t ∧ Advanced 2 s t ∧ Completed t) ∧
    (∃ t, exec (.ldReg x y) s = .next t ∧ WritesV x (readV y s).toNat s t ∧ OnlyRegisters s t ∧ Advanced 2 s t ∧
      Completed t)

/-- ADD Vx,NN wraps modulo 256 and sets no flag: only Vx changes (R93; PC's wrap is D6, log 3). -/
def Obligations.AddImmediateResult : Prop :=
  ∀ (x : Nibble) (nn : Byte) (s : State),
    ∃ t, exec (.addImm x nn) s = .next t ∧ WritesV x (((readV x s).toNat + nn.toNat) % 256) s t ∧ OnlyRegisters s t ∧
      Advanced 2 s t ∧ Completed t

/-- OR, AND and XOR combine the registers bit by bit into Vx and leave VF alone unless it is Vx (R95, R96, R97; PC's wrap is
D6, log 3; VF untouched, log 22). -/
def Obligations.BitwiseResult : Prop :=
  ∀ (x y : Nibble) (s : State),
    (∃ t, exec (.orReg x y) s = .next t ∧ WritesV x ((readV x s).toNat ||| (readV y s).toNat) s t ∧ OnlyRegisters s t ∧
      Advanced 2 s t ∧ Completed t) ∧
    (∃ t, exec (.andReg x y) s = .next t ∧ WritesV x ((readV x s).toNat &&& (readV y s).toNat) s t ∧
      OnlyRegisters s t ∧ Advanced 2 s t ∧ Completed t) ∧
    (∃ t, exec (.xorReg x y) s = .next t ∧ WritesV x ((readV x s).toNat ^^^ (readV y s).toNat) s t ∧
      OnlyRegisters s t ∧ Advanced 2 s t ∧ Completed t)

/-- ADD Vx,Vy: the sum modulo 256, VF the carry, written last, so with X = 15 the flag is what remains (R91, R98; PC's wrap
is D6, log 3). -/
def Obligations.AddRegistersResult : Prop :=
  ∀ (x y : Nibble) (s : State),
    ∃ t, exec (.addReg x y) s = .next t ∧
      WritesVThenFlag x (((readV x s).toNat + (readV y s).toNat) % 256) ((readV x s).toNat + (readV y s).toNat > 255) s t ∧
      OnlyRegisters s t ∧ Advanced 2 s t ∧ Completed t

/-- SUB and SUBN: the difference modulo 256, VF = 1 exactly when the minuend is strictly greater, written last (R91, R99,
R101; PC's wrap is D6, log 3). -/
def Obligations.SubtractResult : Prop :=
  ∀ (x y : Nibble) (s : State),
    (∃ t, exec (.subReg x y) s = .next t ∧
      WritesVThenFlag x ((256 + (readV x s).toNat - (readV y s).toNat) % 256) ((readV x s).toNat > (readV y s).toNat) s t ∧
      OnlyRegisters s t ∧ Advanced 2 s t ∧ Completed t) ∧
    (∃ t, exec (.subnReg x y) s = .next t ∧
      WritesVThenFlag x ((256 + (readV y s).toNat - (readV x s).toNat) % 256) ((readV y s).toNat > (readV x s).toNat) s t ∧
      OnlyRegisters s t ∧ Advanced 2 s t ∧ Completed t)

/-- SHR and SHL: one bit position, VF the bit shifted out, written last; the Y field makes no difference (R91, R100, R102;
PC's wrap is D6, log 3). -/
def Obligations.ShiftResult : Prop :=
  ∀ (x y : Nibble) (s : State),
    (∃ t, exec (.shr x y) s = .next t ∧ WritesVThenFlag x ((readV x s).toNat / 2) ((readV x s).toNat % 2 = 1) s t ∧
      OnlyRegisters s t ∧ Advanced 2 s t ∧ Completed t) ∧
    (∃ t, exec (.shl x y) s = .next t ∧
      WritesVThenFlag x ((readV x s).toNat * 2 % 256) ((readV x s).toNat / 128 = 1) s t ∧
      OnlyRegisters s t ∧ Advanced 2 s t ∧ Completed t)

/-! ### Control transfer (42_control_flow.md) -/

/-- JP NNN, the opcode 0x1000 + NNN: PC is NNN, used as it is, odd or even, with no advance; nothing else changes (R112). -/
def Obligations.JumpReplacesPc : Prop :=
  ∀ (nnn : Addr) (s : State),
    decode (BitVec.ofNat 16 (0x1000 + nnn.toNat)) = .ok (.jp nnn) ∧
    ∃ t, exec (.jp nnn) s = .next t ∧ t.pc = nnn ∧ OnlyPc s t ∧ Completed t

/-- CALL NNN: with room on the stack the un-advanced PC goes to STACK[SP], SP is one more and PC is NNN; every other entry
and everything else is as before. With SP = 16 it raises StackOverflow (R113). -/
def Obligations.CallPushesItsOwnAddress : Prop :=
  ∀ (nnn : Addr) (s : State),
    (s.sp.val < 16 →
      ∃ t, exec (.call nnn) s = .next t ∧ t.pc = nnn ∧ t.sp.val = s.sp.val + 1 ∧
        (∀ k, (h : k < 16) → t.stack[k] = if k = s.sp.val then s.pc else s.stack[k]) ∧
        SameV s t ∧ SameMem s t ∧ SameI s t ∧ SameTimers s t ∧ SameDisplay s t ∧ SameKeys s t ∧ SameModel s t ∧
        Completed t) ∧
    (s.sp.val = 16 → exec (.call nnn) s = .fault .stackOverflow)

/-- RET: with a live entry SP is one less and PC is that entry plus 2; the entries keep their values and nothing else
changes (R111; the wrap of PC is D6, log 3; that the popped entry keeps its value is D16, log 14). -/
def Obligations.ReturnPopsAndAdvances : Prop :=
  ∀ (s : State) (h : 0 < s.sp.val) (h' : s.sp.val - 1 < 16),
    ∃ t, exec .ret s = .next t ∧ t.pc.toNat = ((s.stack[s.sp.val - 1]).toNat + 2) % 4096 ∧ t.sp.val + 1 = s.sp.val ∧
      t.stack = s.stack ∧ SameV s t ∧ SameMem s t ∧ SameI s t ∧ SameTimers s t ∧ SameDisplay s t ∧ SameKeys s t ∧
      SameModel s t ∧ Completed t

/-- A CALL and the RET that ends its subroutine continue at the instruction after the CALL, with the stack depth of before,
whatever the subroutine did, if it left the stack as the CALL did (R111; PC's wrap is D6, log 3). -/
def Obligations.CallThenReturnContinues : Prop :=
  ∀ (nnn : Addr) (s : State), s.sp.val < 16 →
    ∃ t, exec (.call nnn) s = .next t ∧
      ∀ u : State, u.stack = t.stack → u.sp = t.sp →
        ∃ w, exec .ret u = .next w ∧ w.sp = s.sp ∧ Advanced 2 s w

/-- SE Vx,NN and SNE Vx,NN: PC + 4 if the condition holds, else PC + 2, and nothing else changes (R114, R115; PC's wrap is
D6, log 3). -/
def Obligations.SkipOnByte : Prop :=
  ∀ (x : Nibble) (nn : Byte) (s : State),
    (∃ t, exec (.seImm x nn) s = .next t ∧ Skipped (readV x s = nn) s t ∧ OnlyPc s t ∧ Completed t) ∧
    (∃ t, exec (.sneImm x nn) s = .next t ∧ Skipped (readV x s ≠ nn) s t ∧ OnlyPc s t ∧ Completed t)

/-- SE Vx,Vy and SNE Vx,Vy: PC + 4 if the condition holds, else PC + 2, and nothing else changes (R116, R117; PC's wrap is
D6, log 3). -/
def Obligations.SkipOnRegister : Prop :=
  ∀ (x y : Nibble) (s : State),
    (∃ t, exec (.seReg x y) s = .next t ∧ Skipped (readV x s = readV y s) s t ∧ OnlyPc s t ∧ Completed t) ∧
    (∃ t, exec (.sneReg x y) s = .next t ∧ Skipped (readV x s ≠ readV y s) s t ∧ OnlyPc s t ∧ Completed t)

/-- JP V0,NNN: PC is NNN + V0, always V0, reduced modulo 4096, and nothing else changes (R118; the reduction is D6,
log 3). -/
def Obligations.ComputedJump : Prop :=
  ∀ (nnn : Addr) (s : State),
    ∃ t, exec (.jpV0 nnn) s = .next t ∧ t.pc.toNat = (nnn.toNat + (readV 0#4 s).toNat) % 4096 ∧ OnlyPc s t ∧ Completed t

/-! ### Index register and memory (43_memory_index.md) -/

/-- LD I,NNN and LD F,Vx write I and nothing else but PC; the glyph address is the whole byte times 5 (R130, R132; PC's wrap
is D6, log 3). -/
def Obligations.LoadIndexResult : Prop :=
  ∀ (nnn : Addr) (x : Nibble) (s : State),
    (∃ t, exec (.ldI nnn) s = .next t ∧ t.i = nnn ∧ OnlyIndex s t ∧ Advanced 2 s t ∧ Completed t) ∧
    (∃ t, exec (.ldF x) s = .next t ∧ t.i.toNat = (readV x s).toNat * 5 ∧ OnlyIndex s t ∧ Advanced 2 s t ∧ Completed t)

/-- ADD I,Vx: I is the sum modulo 4096 and VF says whether the sum passed 0xFFF; VF is written every time, last, every other
register is as before (R131; the reductions are D5 and D6, log 3 and 4). -/
def Obligations.AddIndexResult : Prop :=
  ∀ (x : Nibble) (s : State),
    ∃ t, exec (.addI x) s = .next t ∧ t.i.toNat = (s.i.toNat + (readV x s).toNat) % 4096 ∧
      (s.i.toNat + (readV x s).toNat > 0xFFF → readV vf t = 1#8) ∧
      (¬s.i.toNat + (readV x s).toNat > 0xFFF → readV vf t = 0#8) ∧ (∀ k, k ≠ vf → readV k t = readV k s) ∧
      SameMem s t ∧ SameStack s t ∧ SameTimers s t ∧ SameDisplay s t ∧ SameKeys s t ∧ SameModel s t ∧ Advanced 2 s t ∧
      Completed t

/-- LD B,Vx stores the hundreds, tens and units at I, I + 1, I + 2, each address reduced modulo 4096; every byte outside
those three, and everything else but PC, is as before (R133; the reductions are D4 and D6, log 3 and 4). -/
def Obligations.StoreBcdResult : Prop :=
  ∀ (x : Nibble) (s : State),
    ∃ t, exec (.ldB x) s = .next t ∧
      (byteAt (memAddr (indexed 0 s)) t).toNat = (readV x s).toNat / 100 ∧
      (byteAt (memAddr (indexed 1 s)) t).toNat = (readV x s).toNat / 10 % 10 ∧
      (byteAt (memAddr (indexed 2 s)) t).toNat = (readV x s).toNat % 10 ∧
      (∀ a : Addr, a ≠ memAddr (indexed 0 s) → a ≠ memAddr (indexed 1 s) → a ≠ memAddr (indexed 2 s) →
        byteAt a t = byteAt a s) ∧
      SameV s t ∧ SameI s t ∧ SameStack s t ∧ SameTimers s t ∧ SameDisplay s t ∧ SameKeys s t ∧ SameModel s t ∧
      Advanced 2 s t ∧ Completed t

/-- LD [I],Vx stores V0 to Vx at I, I + 1, ..., I + X, each address reduced modulo 4096, then I is I + X + 1; every byte
outside those, and every register, is as before (R134; the reductions are D4, D5 and D6, log 3 and 4). -/
def Obligations.StoreRegistersResult : Prop :=
  ∀ (x : Nibble) (s : State),
    ∃ t, exec (.storeRegs x) s = .next t ∧
      (∀ k : Nibble, k.toNat ≤ x.toNat → byteAt (memAddr (indexed k.toNat s)) t = readV k s) ∧
      (∀ a : Addr, (∀ k : Nibble, k.toNat ≤ x.toNat → a ≠ memAddr (indexed k.toNat s)) → byteAt a t = byteAt a s) ∧
      t.i.toNat = (s.i.toNat + x.toNat + 1) % 4096 ∧ SameV s t ∧ SameStack s t ∧ SameTimers s t ∧ SameDisplay s t ∧
      SameKeys s t ∧ SameModel s t ∧ Advanced 2 s t ∧ Completed t

/-- LD Vx,[I] loads V0 to Vx from I, I + 1, ..., I + X, each address reduced modulo 4096, then I is I + X + 1; the registers
above X and every byte of memory are as before (R135; the reductions are D4, D5 and D6, log 3 and 4). -/
def Obligations.LoadRegistersResult : Prop :=
  ∀ (x : Nibble) (s : State),
    ∃ t, exec (.loadRegs x) s = .next t ∧
      (∀ k : Nibble, k.toNat ≤ x.toNat → readV k t = byteAt (memAddr (indexed k.toNat s)) s) ∧
      (∀ k : Nibble, x.toNat < k.toNat → readV k t = readV k s) ∧
      t.i.toNat = (s.i.toNat + x.toNat + 1) % 4096 ∧ SameMem s t ∧ SameStack s t ∧ SameTimers s t ∧ SameDisplay s t ∧
      SameKeys s t ∧ SameModel s t ∧ Advanced 2 s t ∧ Completed t

/-- LD [I],Vx, then I set back, then LD Vx,[I]: every register is what it was and I has moved by X + 1. Without setting I
back the load leaves I at 2 (X + 1) past the start (R136; the reductions are D4 and D5, log 4). -/
def Obligations.StoreLoadRoundTrip : Prop :=
  ∀ (x : Nibble) (s : State),
    ∃ t u w w', exec (.storeRegs x) s = .next t ∧ exec (.ldI s.i) t = .next u ∧ exec (.loadRegs x) u = .next w ∧
      SameV s w ∧ w.i.toNat = (s.i.toNat + (x.toNat + 1)) % 4096 ∧
      exec (.loadRegs x) t = .next w' ∧ w'.i.toNat = (s.i.toNat + 2 * (x.toNat + 1)) % 4096

/-! ### Timers, keys, random (44_timers_keys_random.md) -/

/-- LD Vx,DT, LD DT,Vx and LD ST,Vx move a byte between Vx and a timer and change nothing else but PC; the tick is the
step's (R150, R151, R152; PC's wrap is D6, log 3). -/
def Obligations.TimerTransferResult : Prop :=
  ∀ (x : Nibble) (s : State),
    (∃ t, exec (.ldVxDt x) s = .next t ∧ WritesV x s.dt.toNat s t ∧ OnlyRegisters s t ∧ Advanced 2 s t ∧ Completed t) ∧
    (∃ t, exec (.ldDtVx x) s = .next t ∧ t.dt = readV x s ∧ t.st = s.st ∧ SameV s t ∧ SameI s t ∧ SameMem s t ∧
      SameStack s t ∧ SameDisplay s t ∧ SameKeys s t ∧ SameModel s t ∧ Advanced 2 s t ∧ Completed t) ∧
    (∃ t, exec (.ldStVx x) s = .next t ∧ t.st = readV x s ∧ t.dt = s.dt ∧ SameV s t ∧ SameI s t ∧ SameMem s t ∧
      SameStack s t ∧ SameDisplay s t ∧ SameKeys s t ∧ SameModel s t ∧ Advanced 2 s t ∧ Completed t)

/-- SKP and SKNP test the key the low four bits of Vx select, and change only PC (R149, R153, R154; the low four bits are
D10, log 9; PC's wrap is D6, log 3). -/
def Obligations.SkipOnKey : Prop :=
  ∀ (x k : Nibble) (s : State), k.toNat = (readV x s).toNat % 16 →
    (∃ t, exec (.skp x) s = .next t ∧ Skipped (keyPressed k s = true) s t ∧ OnlyPc s t ∧ Completed t) ∧
    (∃ t, exec (.sknp x) s = .next t ∧ Skipped (keyPressed k s = false) s t ∧ OnlyPc s t ∧ Completed t)

/-- LD Vx,K with a key pressed: Vx is the index of the lowest pressed key, and nothing else changes but PC (R155; the lowest
is D11, log 10; PC's wrap is D6, log 3). -/
def Obligations.WaitKeyTakesLowest : Prop :=
  ∀ (x : Nibble) (s : State), (∃ k, keyPressed k s = true) →
    ∃ t k, exec (.ldVxK x) s = .next t ∧ keyPressed k s = true ∧ (∀ j : Nibble, j.toNat < k.toNat → keyPressed j s = false) ∧
      WritesV x k.toNat s t ∧ OnlyRegisters s t ∧ Advanced 2 s t ∧ Completed t

/-- LD Vx,K with no key pressed: the outcome is Blocked, PC is held, and nothing changes (R155, R79). -/
def Obligations.WaitKeyBlocks : Prop :=
  ∀ (x : Nibble) (s : State), (∀ k, keyPressed k s = false) →
    ∃ t, exec (.ldVxK x) s = .next t ∧ t.outcome = .blocked ∧ t.pc = s.pc ∧ OnlyPc s t

/-- Without a key the machine never proceeds: after any number of steps PC and the registers are as they were, while the
timers have run down by that number (R155, R79; that blocked steps tick is D13, log 12). -/
def Obligations.BlockedUntilKey : Prop :=
  ∀ (n : Nat) (s : State), Waiting s →
    ∃ t, steps n s = .next t ∧ t.pc = s.pc ∧ SameV s t ∧ SameMem s t ∧ t.dt.toNat = s.dt.toNat - n ∧
      t.st.toNat = s.st.toNat - n ∧ Waiting t

/-- RND Vx,NN: Vx is the drawn byte masked with NN, whatever byte is drawn, so it has no bit that NN lacks; one byte is
drawn, and nothing else changes but PC (R156; the free byte is D9, log 8; PC's wrap is D6, log 3). -/
def Obligations.RandomIsMasked : Prop :=
  ∀ (x : Nibble) (nn : Byte) (s : State),
    ∃ t, exec (.rnd x nn) s = .next t ∧ WritesV x ((rndByte s).toNat &&& nn.toNat) s t ∧
      (∀ j, nn.getLsbD j = false → (readV x t).getLsbD j = false) ∧ t.rndIndex = s.rndIndex + 1 ∧ t.tone = s.tone ∧
      SameMem s t ∧ SameI s t ∧ SameStack s t ∧ SameTimers s t ∧ SameDisplay s t ∧ SameKeys s t ∧ Advanced 2 s t ∧
      Completed t

/-! ### Display (45_display.md) -/

/-- CLS clears every pixel, sets DRAW_FLAG, and changes nothing else but PC, VF included (R172; PC's wrap is D6, log 3). -/
def Obligations.ClearScreenResult : Prop :=
  ∀ s : State,
    ∃ t, exec .cls s = .next t ∧ (∀ x y, x < 64 → y < 32 → FrameBuffer.get t.fb x y = false) ∧ t.drawFlag = true ∧
      SameV s t ∧ SameMem s t ∧ SameI s t ∧ SameStack s t ∧ SameTimers s t ∧ SameKeys s t ∧ SameModel s t ∧
      Advanced 2 s t ∧ Completed t

/-- DRW Vx,Vy,N: exactly the pixels under a 1 bit of the sprite are flipped, VF is 1 exactly when one of them was set (the
origin is read before), DRAW_FLAG is set, and nothing else changes but PC (R173; the wrap of the pixels is D7, log 6, the
bit and row order D8, log 7, the addresses D4, log 4, PC's wrap D6, log 3). -/
def Obligations.DrawFlipsExactlyTheSprite : Prop :=
  ∀ (x y n : Nibble) (s : State),
    ∃ t, exec (.drw x y n) s = .next t ∧
      (∀ px py, px < 64 → py < 32 →
        (UnderSprite s (readV x s).toNat (readV y s).toNat n.toNat px py →
          FrameBuffer.get t.fb px py = !FrameBuffer.get s.fb px py) ∧
        (¬UnderSprite s (readV x s).toNat (readV y s).toNat n.toNat px py →
          FrameBuffer.get t.fb px py = FrameBuffer.get s.fb px py)) ∧
      ((∃ px py, px < 64 ∧ py < 32 ∧ UnderSprite s (readV x s).toNat (readV y s).toNat n.toNat px py ∧
          FrameBuffer.get s.fb px py = true) → readV vf t = 1#8) ∧
      ((¬∃ px py, px < 64 ∧ py < 32 ∧ UnderSprite s (readV x s).toNat (readV y s).toNat n.toNat px py ∧
          FrameBuffer.get s.fb px py = true) → readV vf t = 0#8) ∧
      t.drawFlag = true ∧ (∀ k, k ≠ vf → readV k t = readV k s) ∧ SameMem s t ∧ SameI s t ∧ SameStack s t ∧
      SameTimers s t ∧ SameKeys s t ∧ SameModel s t ∧ Advanced 2 s t ∧ Completed t

/-- Drawing the same sprite twice at the same place restores the display exactly, and the second draw collides exactly when
some pixel under the sprite was unset before the first (R175; D7, D8, log 6 and 7). -/
def Obligations.DrawTwiceRestores : Prop :=
  ∀ (x y n : Nibble) (s : State),
    ∃ t, exec (.drw x y n) s = .next t ∧
      ∀ u : State, u.fb = t.fb → SameMem s u → SameI s u → readV x u = readV x s → readV y u = readV y s →
        ∃ w, exec (.drw x y n) u = .next w ∧ w.fb = s.fb ∧
          (readV vf w = 1#8 ↔
            ∃ px py, px < 64 ∧ py < 32 ∧ UnderSprite s (readV x s).toNat (readV y s).toNat n.toNat px py ∧
              FrameBuffer.get s.fb px py = false)

/-! ### Rules about the whole machine -/

/-- No step writes KEY (R20). -/
def Obligations.StepNeverWritesKeys : Prop :=
  ∀ s t : State, step s = .next t → t.key = s.key

/-- Only LD I,NNN, ADD I,Vx, LD F,Vx, LD [I],Vx and LD Vx,[I] move I (R14, R231). -/
def Obligations.OnlyFiveInstructionsMoveIndex : Prop :=
  ∀ s t : State, step s = .next t → t.i ≠ s.i →
    (∃ nnn, decode (fetch s) = .ok (.ldI nnn)) ∨
    ∃ x, decode (fetch s) = .ok (.addI x) ∨ decode (fetch s) = .ok (.ldF x) ∨ decode (fetch s) = .ok (.storeRegs x) ∨
      decode (fetch s) = .ok (.loadRegs x)

/-- A step changes a register only if its instruction has it as a destination: Vx, the flag register VF for the seven
instructions of R12, V0 to Vx for LD Vx,[I] (R11, R12, R230). -/
def Obligations.RegisterFootprint : Prop :=
  ∀ (s t : State) (k : Nibble), step s = .next t → readV k t ≠ readV k s →
    ∃ i, decode (fetch s) = .ok i ∧ mayWriteV i k = true

/-- A step changes a byte of memory only if its instruction is LD B,Vx or LD [I],Vx and the byte is one of those it stores
(R10, R33; the addresses' reduction is D4, log 4). -/
def Obligations.MemoryFootprint : Prop :=
  ∀ (s t : State) (a : Addr), step s = .next t → byteAt a t ≠ byteAt a s →
    ∃ x, (decode (fetch s) = .ok (.ldB x) ∧ ∃ k, k < 3 ∧ a = memAddr (indexed k s)) ∨
      (decode (fetch s) = .ok (.storeRegs x) ∧ ∃ k, k ≤ x.toNat ∧ a = memAddr (indexed k s))

/-- Only CALL and RET touch the call stack: CALL makes SP one more, RET one less, and RET leaves the entries alone (R15; the
kept entry is D16, log 14). -/
def Obligations.StackFootprint : Prop :=
  ∀ s t : State, step s = .next t →
    (t.sp = s.sp ∧ t.stack = s.stack) ∨
    (t.sp.val = s.sp.val + 1 ∧ ∃ nnn, decode (fetch s) = .ok (.call nnn)) ∨
    (t.sp.val + 1 = s.sp.val ∧ t.stack = s.stack ∧ decode (fetch s) = .ok .ret)

/-- No step clears DRAW_FLAG, only CLS and DRW change FB or DRAW_FLAG, and a step that changes FB sets the flag, so a sink
that redraws only on the flag misses nothing (R10, R18, R19, R205). -/
def Obligations.DisplayFootprint : Prop :=
  ∀ s t : State, step s = .next t →
    (s.drawFlag = true → t.drawFlag = true) ∧
    (t.drawFlag ≠ s.drawFlag → decode (fetch s) = .ok .cls ∨ ∃ x y n, decode (fetch s) = .ok (.drw x y n)) ∧
    (t.fb ≠ s.fb → t.drawFlag = true ∧
      (decode (fetch s) = .ok .cls ∨ ∃ x y n, decode (fetch s) = .ok (.drw x y n)))

/-- Time is steps: every step that raises no error takes one count from each non-zero timer, except that LD DT,Vx and LD
ST,Vx count down from the value they write (R226, R227, R208). -/
def Obligations.TimersCountSteps : Prop :=
  ∀ s t : State, step s = .next t →
    ((∀ x, decode (fetch s) ≠ .ok (.ldDtVx x)) → t.dt.toNat = s.dt.toNat - 1) ∧
    ((∀ x, decode (fetch s) ≠ .ok (.ldStVx x)) → t.st.toNat = s.st.toNat - 1) ∧
    (∀ x, decode (fetch s) = .ok (.ldDtVx x) → t.dt.toNat = (readV x s).toNat - 1) ∧
    (∀ x, decode (fetch s) = .ok (.ldStVx x) → t.st.toNat = (readV x s).toNat - 1)

/-- A random byte is drawn once by each RND Vx,NN and by no other instruction (R80; the draw counter is the model's field,
log 8, and no value of it is assumed). -/
def Obligations.RandomDrawnOnlyByRnd : Prop :=
  ∀ s t : State, step s = .next t →
    ((∃ x nn, decode (fetch s) = .ok (.rnd x nn)) → t.rndIndex = s.rndIndex + 1) ∧
    ((∀ x nn, decode (fetch s) ≠ .ok (.rnd x nn)) → t.rndIndex = s.rndIndex)

/-- The outputs of the last step are read by nothing: a step does not depend on the model's TONE and outcome latches, so
there is no latch of having been blocked (R23, R24; the latches are the model's own, log 13). -/
def Obligations.OutputsAreNeverRead : Prop :=
  ∀ (s : State) (b : Bool) (o : StepOutcome), step { s with tone := b, outcome := o } = step s

/-- A store is seen by the very next fetch: LD [I],Vx with I at the next instruction replaces it, and the next step fetches
V0 and V1 (R41, R228; the reductions are D4 and D6, log 3 and 4). -/
def Obligations.StoreSeenByNextFetch : Prop :=
  ∀ (x : Nibble) (s : State), decode (fetch s) = .ok (.storeRegs x) → 1 ≤ x.toNat → s.i = s.pc + 2#12 →
    ∃ t, step s = .next t ∧ fetch t = opcodeOfBytes (readV 0#4 s) (readV 1#4 s)

/-- A jump to itself, the usual end of a program, runs for ever: after any number of steps PC, the registers and memory are
as they were (R59, R81, R112). -/
def Obligations.SelfJumpRunsForever : Prop :=
  ∀ (n : Nat) (s : State), AtSelfJump s →
    ∃ t, steps n s = .next t ∧ t.pc = s.pc ∧ SameV s t ∧ SameMem s t ∧ SameI s t ∧ SameStack s t ∧ AtSelfJump t

/-- The instruction placed by withFetchWord is the one the next step runs: the fetch gives its opcode (R34, R41; log 16). -/
def Obligations.PlacedWordIsFetched : Prop :=
  ∀ (s : State) (i : Instr), i.wf = true →
    fetchDecode (s.withFetchWord 16 (encode i).toNat) = .ok i ∧
    ∀ a : Addr, a ≠ s.pc → a ≠ s.pc + 1#12 → byteAt a (s.withFetchWord 16 (encode i).toNat) = byteAt a s
end

