-- ==== Sys2Proof/Laws/Encoding.lean ====
section
/-! SUPPORT. What the fields of an opcode are as numbers (R51), what an encoded opcode is as a number (R52), and so what
each field of an encoded opcode is. The decoder's proofs cite these and do not unfold bit extraction. -/

namespace Sys2Proof

open Sys2Proof

/-! ### Fields as numbers (R51) -/

theorem fieldOP_toNat (op : Word) : (fieldOP op).toNat = op.toNat / 4096 := by
  have := op.isLt
  simp only [fieldOP, BitVec.extractLsb'_toNat, Nat.shiftRight_eq_div_pow]
  omega
theorem fieldX_toNat (op : Word) : (fieldX op).toNat = op.toNat / 256 % 16 := by
  simp [fieldX, BitVec.extractLsb'_toNat, Nat.shiftRight_eq_div_pow]
theorem fieldY_toNat (op : Word) : (fieldY op).toNat = op.toNat / 16 % 16 := by
  simp [fieldY, BitVec.extractLsb'_toNat, Nat.shiftRight_eq_div_pow]
theorem fieldN_toNat (op : Word) : (fieldN op).toNat = op.toNat % 16 := by
  simp [fieldN, BitVec.extractLsb'_toNat]
theorem fieldNN_toNat (op : Word) : (fieldNN op).toNat = op.toNat % 256 := by
  simp [fieldNN, BitVec.extractLsb'_toNat]
theorem fieldNNN_toNat (op : Word) : (fieldNNN op).toNat = op.toNat % 4096 := by
  simp [fieldNNN, BitVec.extractLsb'_toNat]
theorem highByte_toNat (op : Word) : (highByte op).toNat = op.toNat / 256 := by
  have := op.isLt
  simp only [highByte, BitVec.extractLsb'_toNat, Nat.shiftRight_eq_div_pow]
  omega
theorem lowByte_toNat (op : Word) : (lowByte op).toNat = op.toNat % 256 := by
  simp [lowByte, BitVec.extractLsb'_toNat]

/-! ### Encoded opcodes as numbers (R52) -/

theorem append_toNat {m n : Nat} (a : BitVec m) (b : BitVec n) : (a ++ b).toNat = a.toNat * 2 ^ n + b.toNat := by
  rw [BitVec.toNat_append, ← Nat.shiftLeft_add_eq_or_of_lt b.isLt, Nat.shiftLeft_eq]

theorem formatNNN_toNat (o : Nibble) (a : Addr) : (formatNNN o a).toNat = o.toNat * 4096 + a.toNat := append_toNat o a
theorem formatXNN_toNat (o x : Nibble) (b : Byte) :
    (formatXNN o x b).toNat = o.toNat * 4096 + x.toNat * 256 + b.toNat := by
  have h1 : (formatXNN o x b).toNat = o.toNat * 2 ^ 12 + (x ++ b).toNat := append_toNat o (x ++ b)
  rw [h1, append_toNat]; omega
theorem formatXYN_toNat (o x y n : Nibble) :
    (formatXYN o x y n).toNat = o.toNat * 4096 + x.toNat * 256 + y.toNat * 16 + n.toNat := by
  have h1 : (formatXYN o x y n).toNat = o.toNat * 2 ^ 12 + (x ++ (y ++ n)).toNat := append_toNat o (x ++ (y ++ n))
  have h2 : (x ++ (y ++ n)).toNat = x.toNat * 2 ^ 8 + (y ++ n).toNat := append_toNat x (y ++ n)
  rw [h1, h2, append_toNat]; omega
/-- The opcode two bytes make, as a number (R34). -/
theorem opcodeOfBytes_toNat (hi lo : Byte) : (opcodeOfBytes hi lo).toNat = hi.toNat * 256 + lo.toNat :=
  append_toNat hi lo

/-! ### Fields of encoded opcodes -/

@[simp] theorem fieldOP_formatNNN (o : Nibble) (a : Addr) : fieldOP (formatNNN o a) = o := by
  apply BitVec.eq_of_toNat_eq; rw [fieldOP_toNat, formatNNN_toNat]; have := o.isLt; have := a.isLt; omega
@[simp] theorem fieldNNN_formatNNN (o : Nibble) (a : Addr) : fieldNNN (formatNNN o a) = a := by
  apply BitVec.eq_of_toNat_eq; rw [fieldNNN_toNat, formatNNN_toNat]; have := o.isLt; have := a.isLt; omega

@[simp] theorem fieldOP_formatXNN (o x : Nibble) (b : Byte) : fieldOP (formatXNN o x b) = o := by
  apply BitVec.eq_of_toNat_eq; rw [fieldOP_toNat, formatXNN_toNat]
  have := o.isLt; have := x.isLt; have := b.isLt; omega
@[simp] theorem fieldX_formatXNN (o x : Nibble) (b : Byte) : fieldX (formatXNN o x b) = x := by
  apply BitVec.eq_of_toNat_eq; rw [fieldX_toNat, formatXNN_toNat]
  have := o.isLt; have := x.isLt; have := b.isLt; omega
@[simp] theorem fieldNN_formatXNN (o x : Nibble) (b : Byte) : fieldNN (formatXNN o x b) = b := by
  apply BitVec.eq_of_toNat_eq; rw [fieldNN_toNat, formatXNN_toNat]
  have := o.isLt; have := x.isLt; have := b.isLt; omega

@[simp] theorem fieldOP_formatXYN (o x y n : Nibble) : fieldOP (formatXYN o x y n) = o := by
  apply BitVec.eq_of_toNat_eq; rw [fieldOP_toNat, formatXYN_toNat]
  have := o.isLt; have := x.isLt; have := y.isLt; have := n.isLt; omega
@[simp] theorem fieldX_formatXYN (o x y n : Nibble) : fieldX (formatXYN o x y n) = x := by
  apply BitVec.eq_of_toNat_eq; rw [fieldX_toNat, formatXYN_toNat]
  have := o.isLt; have := x.isLt; have := y.isLt; have := n.isLt; omega
@[simp] theorem fieldY_formatXYN (o x y n : Nibble) : fieldY (formatXYN o x y n) = y := by
  apply BitVec.eq_of_toNat_eq; rw [fieldY_toNat, formatXYN_toNat]
  have := o.isLt; have := x.isLt; have := y.isLt; have := n.isLt; omega
@[simp] theorem fieldN_formatXYN (o x y n : Nibble) : fieldN (formatXYN o x y n) = n := by
  apply BitVec.eq_of_toNat_eq; rw [fieldN_toNat, formatXYN_toNat]
  have := o.isLt; have := x.isLt; have := y.isLt; have := n.isLt; omega

/-- The two bytes of an opcode make it up again, the high byte first (R34). -/
@[simp] theorem opcodeOfBytes_bytes (op : Word) : opcodeOfBytes (highByte op) (lowByte op) = op := by
  apply BitVec.eq_of_toNat_eq; rw [opcodeOfBytes_toNat, highByte_toNat, lowByte_toNat]; omega

/-! ### What the masks of R54 keep -/

theorem and_F000 (op : Word) : op &&& 0xF000#16 = (fieldOP op).setWidth 16 <<< 12 := by
  apply BitVec.eq_of_getLsbD_eq; intro i hi
  interval_cases i <;> simp [fieldOP]
theorem and_F00F (op : Word) : op &&& 0xF00F#16 = (fieldOP op).setWidth 16 <<< 12 ||| (fieldN op).setWidth 16 := by
  apply BitVec.eq_of_getLsbD_eq; intro i hi
  interval_cases i <;> simp [fieldOP, fieldN]
theorem and_F0FF (op : Word) : op &&& 0xF0FF#16 = (fieldOP op).setWidth 16 <<< 12 ||| (fieldNN op).setWidth 16 := by
  apply BitVec.eq_of_getLsbD_eq; intro i hi
  interval_cases i <;> simp [fieldOP, fieldNN]
theorem and_FFFF (op : Word) : op &&& 0xFFFF#16 = op := by
  apply BitVec.eq_of_getLsbD_eq; intro i hi
  interval_cases i <;> simp

end Sys2Proof
end

