-- ==== Sys2Proof/Laws/State.lean ====
section
/-! SUPPORT. One lemma per field per update of State, true by rfl, and the same for the named reads, so that no later proof
unfolds a record update. -/

namespace Sys2Proof.Machine

open Sys2Proof

/-! ### memWrite -/

@[simp] theorem memWrite_mem (addr : Nat) (b : Byte) (s : State) : (memWrite addr b s).mem = Memory.write s.mem (memAddr addr) b := rfl
@[simp] theorem memWrite_v (addr : Nat) (b : Byte) (s : State) : (memWrite addr b s).v = s.v := rfl
@[simp] theorem memWrite_i (addr : Nat) (b : Byte) (s : State) : (memWrite addr b s).i = s.i := rfl
@[simp] theorem memWrite_pc (addr : Nat) (b : Byte) (s : State) : (memWrite addr b s).pc = s.pc := rfl
@[simp] theorem memWrite_stack (addr : Nat) (b : Byte) (s : State) : (memWrite addr b s).stack = s.stack := rfl
@[simp] theorem memWrite_sp (addr : Nat) (b : Byte) (s : State) : (memWrite addr b s).sp = s.sp := rfl
@[simp] theorem memWrite_dt (addr : Nat) (b : Byte) (s : State) : (memWrite addr b s).dt = s.dt := rfl
@[simp] theorem memWrite_st (addr : Nat) (b : Byte) (s : State) : (memWrite addr b s).st = s.st := rfl
@[simp] theorem memWrite_fb (addr : Nat) (b : Byte) (s : State) : (memWrite addr b s).fb = s.fb := rfl
@[simp] theorem memWrite_drawFlag (addr : Nat) (b : Byte) (s : State) : (memWrite addr b s).drawFlag = s.drawFlag := rfl
@[simp] theorem memWrite_key (addr : Nat) (b : Byte) (s : State) : (memWrite addr b s).key = s.key := rfl
@[simp] theorem memWrite_rndIndex (addr : Nat) (b : Byte) (s : State) : (memWrite addr b s).rndIndex = s.rndIndex := rfl
@[simp] theorem memWrite_tone (addr : Nat) (b : Byte) (s : State) : (memWrite addr b s).tone = s.tone := rfl
@[simp] theorem memWrite_outcome (addr : Nat) (b : Byte) (s : State) : (memWrite addr b s).outcome = s.outcome := rfl
@[simp] theorem readV_memWrite (r : Nibble) (addr : Nat) (b : Byte) (s : State) : readV r (memWrite addr b s) = readV r s := rfl
@[simp] theorem keyPressed_memWrite (r : Nibble) (addr : Nat) (b : Byte) (s : State) : keyPressed r (memWrite addr b s) = keyPressed r s := rfl
@[simp] theorem rndByte_memWrite (addr : Nat) (b : Byte) (s : State) : rndByte (memWrite addr b s) = rndByte s := rfl
@[simp] theorem indexed_memWrite (j : Nat) (addr : Nat) (b : Byte) (s : State) : indexed j (memWrite addr b s) = indexed j s := rfl
@[simp] theorem indexPast_memWrite (j : Nat) (addr : Nat) (b : Byte) (s : State) : indexPast j (memWrite addr b s) = indexPast j s := rfl

/-! ### writeV -/

@[simp] theorem writeV_mem (x : Nibble) (b : Byte) (s : State) : (writeV x b s).mem = s.mem := rfl
@[simp] theorem writeV_v (x : Nibble) (b : Byte) (s : State) : (writeV x b s).v = s.v.set x.toNat b x.isLt := rfl
@[simp] theorem writeV_i (x : Nibble) (b : Byte) (s : State) : (writeV x b s).i = s.i := rfl
@[simp] theorem writeV_pc (x : Nibble) (b : Byte) (s : State) : (writeV x b s).pc = s.pc := rfl
@[simp] theorem writeV_stack (x : Nibble) (b : Byte) (s : State) : (writeV x b s).stack = s.stack := rfl
@[simp] theorem writeV_sp (x : Nibble) (b : Byte) (s : State) : (writeV x b s).sp = s.sp := rfl
@[simp] theorem writeV_dt (x : Nibble) (b : Byte) (s : State) : (writeV x b s).dt = s.dt := rfl
@[simp] theorem writeV_st (x : Nibble) (b : Byte) (s : State) : (writeV x b s).st = s.st := rfl
@[simp] theorem writeV_fb (x : Nibble) (b : Byte) (s : State) : (writeV x b s).fb = s.fb := rfl
@[simp] theorem writeV_drawFlag (x : Nibble) (b : Byte) (s : State) : (writeV x b s).drawFlag = s.drawFlag := rfl
@[simp] theorem writeV_key (x : Nibble) (b : Byte) (s : State) : (writeV x b s).key = s.key := rfl
@[simp] theorem writeV_rndIndex (x : Nibble) (b : Byte) (s : State) : (writeV x b s).rndIndex = s.rndIndex := rfl
@[simp] theorem writeV_tone (x : Nibble) (b : Byte) (s : State) : (writeV x b s).tone = s.tone := rfl
@[simp] theorem writeV_outcome (x : Nibble) (b : Byte) (s : State) : (writeV x b s).outcome = s.outcome := rfl
@[simp] theorem memRead_writeV (m : Nat) (x : Nibble) (b : Byte) (s : State) : memRead m (writeV x b s) = memRead m s := rfl
@[simp] theorem keyPressed_writeV (r : Nibble) (x : Nibble) (b : Byte) (s : State) : keyPressed r (writeV x b s) = keyPressed r s := rfl
@[simp] theorem rndByte_writeV (x : Nibble) (b : Byte) (s : State) : rndByte (writeV x b s) = rndByte s := rfl
@[simp] theorem indexed_writeV (j : Nat) (x : Nibble) (b : Byte) (s : State) : indexed j (writeV x b s) = indexed j s := rfl
@[simp] theorem indexPast_writeV (j : Nat) (x : Nibble) (b : Byte) (s : State) : indexPast j (writeV x b s) = indexPast j s := rfl

/-! ### writeI -/

@[simp] theorem writeI_mem (a : Addr) (s : State) : (writeI a s).mem = s.mem := rfl
@[simp] theorem writeI_v (a : Addr) (s : State) : (writeI a s).v = s.v := rfl
@[simp] theorem writeI_i (a : Addr) (s : State) : (writeI a s).i = a := rfl
@[simp] theorem writeI_pc (a : Addr) (s : State) : (writeI a s).pc = s.pc := rfl
@[simp] theorem writeI_stack (a : Addr) (s : State) : (writeI a s).stack = s.stack := rfl
@[simp] theorem writeI_sp (a : Addr) (s : State) : (writeI a s).sp = s.sp := rfl
@[simp] theorem writeI_dt (a : Addr) (s : State) : (writeI a s).dt = s.dt := rfl
@[simp] theorem writeI_st (a : Addr) (s : State) : (writeI a s).st = s.st := rfl
@[simp] theorem writeI_fb (a : Addr) (s : State) : (writeI a s).fb = s.fb := rfl
@[simp] theorem writeI_drawFlag (a : Addr) (s : State) : (writeI a s).drawFlag = s.drawFlag := rfl
@[simp] theorem writeI_key (a : Addr) (s : State) : (writeI a s).key = s.key := rfl
@[simp] theorem writeI_rndIndex (a : Addr) (s : State) : (writeI a s).rndIndex = s.rndIndex := rfl
@[simp] theorem writeI_tone (a : Addr) (s : State) : (writeI a s).tone = s.tone := rfl
@[simp] theorem writeI_outcome (a : Addr) (s : State) : (writeI a s).outcome = s.outcome := rfl
@[simp] theorem readV_writeI (r : Nibble) (a : Addr) (s : State) : readV r (writeI a s) = readV r s := rfl
@[simp] theorem memRead_writeI (m : Nat) (a : Addr) (s : State) : memRead m (writeI a s) = memRead m s := rfl
@[simp] theorem keyPressed_writeI (r : Nibble) (a : Addr) (s : State) : keyPressed r (writeI a s) = keyPressed r s := rfl
@[simp] theorem rndByte_writeI (a : Addr) (s : State) : rndByte (writeI a s) = rndByte s := rfl

/-! ### writePc -/

@[simp] theorem writePc_mem (a : Addr) (s : State) : (writePc a s).mem = s.mem := rfl
@[simp] theorem writePc_v (a : Addr) (s : State) : (writePc a s).v = s.v := rfl
@[simp] theorem writePc_i (a : Addr) (s : State) : (writePc a s).i = s.i := rfl
@[simp] theorem writePc_pc (a : Addr) (s : State) : (writePc a s).pc = a := rfl
@[simp] theorem writePc_stack (a : Addr) (s : State) : (writePc a s).stack = s.stack := rfl
@[simp] theorem writePc_sp (a : Addr) (s : State) : (writePc a s).sp = s.sp := rfl
@[simp] theorem writePc_dt (a : Addr) (s : State) : (writePc a s).dt = s.dt := rfl
@[simp] theorem writePc_st (a : Addr) (s : State) : (writePc a s).st = s.st := rfl
@[simp] theorem writePc_fb (a : Addr) (s : State) : (writePc a s).fb = s.fb := rfl
@[simp] theorem writePc_drawFlag (a : Addr) (s : State) : (writePc a s).drawFlag = s.drawFlag := rfl
@[simp] theorem writePc_key (a : Addr) (s : State) : (writePc a s).key = s.key := rfl
@[simp] theorem writePc_rndIndex (a : Addr) (s : State) : (writePc a s).rndIndex = s.rndIndex := rfl
@[simp] theorem writePc_tone (a : Addr) (s : State) : (writePc a s).tone = s.tone := rfl
@[simp] theorem writePc_outcome (a : Addr) (s : State) : (writePc a s).outcome = s.outcome := rfl
@[simp] theorem readV_writePc (r : Nibble) (a : Addr) (s : State) : readV r (writePc a s) = readV r s := rfl
@[simp] theorem memRead_writePc (m : Nat) (a : Addr) (s : State) : memRead m (writePc a s) = memRead m s := rfl
@[simp] theorem keyPressed_writePc (r : Nibble) (a : Addr) (s : State) : keyPressed r (writePc a s) = keyPressed r s := rfl
@[simp] theorem rndByte_writePc (a : Addr) (s : State) : rndByte (writePc a s) = rndByte s := rfl
@[simp] theorem indexed_writePc (j : Nat) (a : Addr) (s : State) : indexed j (writePc a s) = indexed j s := rfl
@[simp] theorem indexPast_writePc (j : Nat) (a : Addr) (s : State) : indexPast j (writePc a s) = indexPast j s := rfl

/-! ### advance -/

@[simp] theorem advance_mem (n : Nat) (s : State) : (advance n s).mem = s.mem := rfl
@[simp] theorem advance_v (n : Nat) (s : State) : (advance n s).v = s.v := rfl
@[simp] theorem advance_i (n : Nat) (s : State) : (advance n s).i = s.i := rfl
@[simp] theorem advance_pc (n : Nat) (s : State) : (advance n s).pc = BitVec.ofNat 12 (s.pc.toNat + n) := rfl
@[simp] theorem advance_stack (n : Nat) (s : State) : (advance n s).stack = s.stack := rfl
@[simp] theorem advance_sp (n : Nat) (s : State) : (advance n s).sp = s.sp := rfl
@[simp] theorem advance_dt (n : Nat) (s : State) : (advance n s).dt = s.dt := rfl
@[simp] theorem advance_st (n : Nat) (s : State) : (advance n s).st = s.st := rfl
@[simp] theorem advance_fb (n : Nat) (s : State) : (advance n s).fb = s.fb := rfl
@[simp] theorem advance_drawFlag (n : Nat) (s : State) : (advance n s).drawFlag = s.drawFlag := rfl
@[simp] theorem advance_key (n : Nat) (s : State) : (advance n s).key = s.key := rfl
@[simp] theorem advance_rndIndex (n : Nat) (s : State) : (advance n s).rndIndex = s.rndIndex := rfl
@[simp] theorem advance_tone (n : Nat) (s : State) : (advance n s).tone = s.tone := rfl
@[simp] theorem advance_outcome (n : Nat) (s : State) : (advance n s).outcome = s.outcome := rfl
@[simp] theorem readV_advance (r : Nibble) (n : Nat) (s : State) : readV r (advance n s) = readV r s := rfl
@[simp] theorem memRead_advance (m : Nat) (n : Nat) (s : State) : memRead m (advance n s) = memRead m s := rfl
@[simp] theorem keyPressed_advance (r : Nibble) (n : Nat) (s : State) : keyPressed r (advance n s) = keyPressed r s := rfl
@[simp] theorem rndByte_advance (n : Nat) (s : State) : rndByte (advance n s) = rndByte s := rfl
@[simp] theorem indexed_advance (j : Nat) (n : Nat) (s : State) : indexed j (advance n s) = indexed j s := rfl
@[simp] theorem indexPast_advance (j : Nat) (n : Nat) (s : State) : indexPast j (advance n s) = indexPast j s := rfl

/-! ### writeDt -/

@[simp] theorem writeDt_mem (b : Byte) (s : State) : (writeDt b s).mem = s.mem := rfl
@[simp] theorem writeDt_v (b : Byte) (s : State) : (writeDt b s).v = s.v := rfl
@[simp] theorem writeDt_i (b : Byte) (s : State) : (writeDt b s).i = s.i := rfl
@[simp] theorem writeDt_pc (b : Byte) (s : State) : (writeDt b s).pc = s.pc := rfl
@[simp] theorem writeDt_stack (b : Byte) (s : State) : (writeDt b s).stack = s.stack := rfl
@[simp] theorem writeDt_sp (b : Byte) (s : State) : (writeDt b s).sp = s.sp := rfl
@[simp] theorem writeDt_dt (b : Byte) (s : State) : (writeDt b s).dt = b := rfl
@[simp] theorem writeDt_st (b : Byte) (s : State) : (writeDt b s).st = s.st := rfl
@[simp] theorem writeDt_fb (b : Byte) (s : State) : (writeDt b s).fb = s.fb := rfl
@[simp] theorem writeDt_drawFlag (b : Byte) (s : State) : (writeDt b s).drawFlag = s.drawFlag := rfl
@[simp] theorem writeDt_key (b : Byte) (s : State) : (writeDt b s).key = s.key := rfl
@[simp] theorem writeDt_rndIndex (b : Byte) (s : State) : (writeDt b s).rndIndex = s.rndIndex := rfl
@[simp] theorem writeDt_tone (b : Byte) (s : State) : (writeDt b s).tone = s.tone := rfl
@[simp] theorem writeDt_outcome (b : Byte) (s : State) : (writeDt b s).outcome = s.outcome := rfl
@[simp] theorem readV_writeDt (r : Nibble) (b : Byte) (s : State) : readV r (writeDt b s) = readV r s := rfl
@[simp] theorem memRead_writeDt (m : Nat) (b : Byte) (s : State) : memRead m (writeDt b s) = memRead m s := rfl
@[simp] theorem keyPressed_writeDt (r : Nibble) (b : Byte) (s : State) : keyPressed r (writeDt b s) = keyPressed r s := rfl
@[simp] theorem rndByte_writeDt (b : Byte) (s : State) : rndByte (writeDt b s) = rndByte s := rfl
@[simp] theorem indexed_writeDt (j : Nat) (b : Byte) (s : State) : indexed j (writeDt b s) = indexed j s := rfl
@[simp] theorem indexPast_writeDt (j : Nat) (b : Byte) (s : State) : indexPast j (writeDt b s) = indexPast j s := rfl

/-! ### writeSt -/

@[simp] theorem writeSt_mem (b : Byte) (s : State) : (writeSt b s).mem = s.mem := rfl
@[simp] theorem writeSt_v (b : Byte) (s : State) : (writeSt b s).v = s.v := rfl
@[simp] theorem writeSt_i (b : Byte) (s : State) : (writeSt b s).i = s.i := rfl
@[simp] theorem writeSt_pc (b : Byte) (s : State) : (writeSt b s).pc = s.pc := rfl
@[simp] theorem writeSt_stack (b : Byte) (s : State) : (writeSt b s).stack = s.stack := rfl
@[simp] theorem writeSt_sp (b : Byte) (s : State) : (writeSt b s).sp = s.sp := rfl
@[simp] theorem writeSt_dt (b : Byte) (s : State) : (writeSt b s).dt = s.dt := rfl
@[simp] theorem writeSt_st (b : Byte) (s : State) : (writeSt b s).st = b := rfl
@[simp] theorem writeSt_fb (b : Byte) (s : State) : (writeSt b s).fb = s.fb := rfl
@[simp] theorem writeSt_drawFlag (b : Byte) (s : State) : (writeSt b s).drawFlag = s.drawFlag := rfl
@[simp] theorem writeSt_key (b : Byte) (s : State) : (writeSt b s).key = s.key := rfl
@[simp] theorem writeSt_rndIndex (b : Byte) (s : State) : (writeSt b s).rndIndex = s.rndIndex := rfl
@[simp] theorem writeSt_tone (b : Byte) (s : State) : (writeSt b s).tone = s.tone := rfl
@[simp] theorem writeSt_outcome (b : Byte) (s : State) : (writeSt b s).outcome = s.outcome := rfl
@[simp] theorem readV_writeSt (r : Nibble) (b : Byte) (s : State) : readV r (writeSt b s) = readV r s := rfl
@[simp] theorem memRead_writeSt (m : Nat) (b : Byte) (s : State) : memRead m (writeSt b s) = memRead m s := rfl
@[simp] theorem keyPressed_writeSt (r : Nibble) (b : Byte) (s : State) : keyPressed r (writeSt b s) = keyPressed r s := rfl
@[simp] theorem rndByte_writeSt (b : Byte) (s : State) : rndByte (writeSt b s) = rndByte s := rfl
@[simp] theorem indexed_writeSt (j : Nat) (b : Byte) (s : State) : indexed j (writeSt b s) = indexed j s := rfl
@[simp] theorem indexPast_writeSt (j : Nat) (b : Byte) (s : State) : indexPast j (writeSt b s) = indexPast j s := rfl

/-! ### writeFb -/

@[simp] theorem writeFb_mem (f : FrameBuffer) (s : State) : (writeFb f s).mem = s.mem := rfl
@[simp] theorem writeFb_v (f : FrameBuffer) (s : State) : (writeFb f s).v = s.v := rfl
@[simp] theorem writeFb_i (f : FrameBuffer) (s : State) : (writeFb f s).i = s.i := rfl
@[simp] theorem writeFb_pc (f : FrameBuffer) (s : State) : (writeFb f s).pc = s.pc := rfl
@[simp] theorem writeFb_stack (f : FrameBuffer) (s : State) : (writeFb f s).stack = s.stack := rfl
@[simp] theorem writeFb_sp (f : FrameBuffer) (s : State) : (writeFb f s).sp = s.sp := rfl
@[simp] theorem writeFb_dt (f : FrameBuffer) (s : State) : (writeFb f s).dt = s.dt := rfl
@[simp] theorem writeFb_st (f : FrameBuffer) (s : State) : (writeFb f s).st = s.st := rfl
@[simp] theorem writeFb_fb (f : FrameBuffer) (s : State) : (writeFb f s).fb = f := rfl
@[simp] theorem writeFb_drawFlag (f : FrameBuffer) (s : State) : (writeFb f s).drawFlag = s.drawFlag := rfl
@[simp] theorem writeFb_key (f : FrameBuffer) (s : State) : (writeFb f s).key = s.key := rfl
@[simp] theorem writeFb_rndIndex (f : FrameBuffer) (s : State) : (writeFb f s).rndIndex = s.rndIndex := rfl
@[simp] theorem writeFb_tone (f : FrameBuffer) (s : State) : (writeFb f s).tone = s.tone := rfl
@[simp] theorem writeFb_outcome (f : FrameBuffer) (s : State) : (writeFb f s).outcome = s.outcome := rfl
@[simp] theorem readV_writeFb (r : Nibble) (f : FrameBuffer) (s : State) : readV r (writeFb f s) = readV r s := rfl
@[simp] theorem memRead_writeFb (m : Nat) (f : FrameBuffer) (s : State) : memRead m (writeFb f s) = memRead m s := rfl
@[simp] theorem keyPressed_writeFb (r : Nibble) (f : FrameBuffer) (s : State) : keyPressed r (writeFb f s) = keyPressed r s := rfl
@[simp] theorem rndByte_writeFb (f : FrameBuffer) (s : State) : rndByte (writeFb f s) = rndByte s := rfl
@[simp] theorem indexed_writeFb (j : Nat) (f : FrameBuffer) (s : State) : indexed j (writeFb f s) = indexed j s := rfl
@[simp] theorem indexPast_writeFb (j : Nat) (f : FrameBuffer) (s : State) : indexPast j (writeFb f s) = indexPast j s := rfl

/-! ### markRedraw -/

@[simp] theorem markRedraw_mem (s : State) : (markRedraw s).mem = s.mem := rfl
@[simp] theorem markRedraw_v (s : State) : (markRedraw s).v = s.v := rfl
@[simp] theorem markRedraw_i (s : State) : (markRedraw s).i = s.i := rfl
@[simp] theorem markRedraw_pc (s : State) : (markRedraw s).pc = s.pc := rfl
@[simp] theorem markRedraw_stack (s : State) : (markRedraw s).stack = s.stack := rfl
@[simp] theorem markRedraw_sp (s : State) : (markRedraw s).sp = s.sp := rfl
@[simp] theorem markRedraw_dt (s : State) : (markRedraw s).dt = s.dt := rfl
@[simp] theorem markRedraw_st (s : State) : (markRedraw s).st = s.st := rfl
@[simp] theorem markRedraw_fb (s : State) : (markRedraw s).fb = s.fb := rfl
@[simp] theorem markRedraw_drawFlag (s : State) : (markRedraw s).drawFlag = true := rfl
@[simp] theorem markRedraw_key (s : State) : (markRedraw s).key = s.key := rfl
@[simp] theorem markRedraw_rndIndex (s : State) : (markRedraw s).rndIndex = s.rndIndex := rfl
@[simp] theorem markRedraw_tone (s : State) : (markRedraw s).tone = s.tone := rfl
@[simp] theorem markRedraw_outcome (s : State) : (markRedraw s).outcome = s.outcome := rfl
@[simp] theorem readV_markRedraw (r : Nibble) (s : State) : readV r (markRedraw s) = readV r s := rfl
@[simp] theorem memRead_markRedraw (m : Nat) (s : State) : memRead m (markRedraw s) = memRead m s := rfl
@[simp] theorem keyPressed_markRedraw (r : Nibble) (s : State) : keyPressed r (markRedraw s) = keyPressed r s := rfl
@[simp] theorem rndByte_markRedraw (s : State) : rndByte (markRedraw s) = rndByte s := rfl
@[simp] theorem indexed_markRedraw (j : Nat) (s : State) : indexed j (markRedraw s) = indexed j s := rfl
@[simp] theorem indexPast_markRedraw (j : Nat) (s : State) : indexPast j (markRedraw s) = indexPast j s := rfl

/-! ### consumeRnd -/

@[simp] theorem consumeRnd_mem (s : State) : (consumeRnd s).mem = s.mem := rfl
@[simp] theorem consumeRnd_v (s : State) : (consumeRnd s).v = s.v := rfl
@[simp] theorem consumeRnd_i (s : State) : (consumeRnd s).i = s.i := rfl
@[simp] theorem consumeRnd_pc (s : State) : (consumeRnd s).pc = s.pc := rfl
@[simp] theorem consumeRnd_stack (s : State) : (consumeRnd s).stack = s.stack := rfl
@[simp] theorem consumeRnd_sp (s : State) : (consumeRnd s).sp = s.sp := rfl
@[simp] theorem consumeRnd_dt (s : State) : (consumeRnd s).dt = s.dt := rfl
@[simp] theorem consumeRnd_st (s : State) : (consumeRnd s).st = s.st := rfl
@[simp] theorem consumeRnd_fb (s : State) : (consumeRnd s).fb = s.fb := rfl
@[simp] theorem consumeRnd_drawFlag (s : State) : (consumeRnd s).drawFlag = s.drawFlag := rfl
@[simp] theorem consumeRnd_key (s : State) : (consumeRnd s).key = s.key := rfl
@[simp] theorem consumeRnd_rndIndex (s : State) : (consumeRnd s).rndIndex = s.rndIndex + 1 := rfl
@[simp] theorem consumeRnd_tone (s : State) : (consumeRnd s).tone = s.tone := rfl
@[simp] theorem consumeRnd_outcome (s : State) : (consumeRnd s).outcome = s.outcome := rfl
@[simp] theorem readV_consumeRnd (r : Nibble) (s : State) : readV r (consumeRnd s) = readV r s := rfl
@[simp] theorem memRead_consumeRnd (m : Nat) (s : State) : memRead m (consumeRnd s) = memRead m s := rfl
@[simp] theorem keyPressed_consumeRnd (r : Nibble) (s : State) : keyPressed r (consumeRnd s) = keyPressed r s := rfl
@[simp] theorem indexed_consumeRnd (j : Nat) (s : State) : indexed j (consumeRnd s) = indexed j s := rfl
@[simp] theorem indexPast_consumeRnd (j : Nat) (s : State) : indexPast j (consumeRnd s) = indexPast j s := rfl

/-! ### setOutcome -/

@[simp] theorem setOutcome_mem (o : StepOutcome) (s : State) : (setOutcome o s).mem = s.mem := rfl
@[simp] theorem setOutcome_v (o : StepOutcome) (s : State) : (setOutcome o s).v = s.v := rfl
@[simp] theorem setOutcome_i (o : StepOutcome) (s : State) : (setOutcome o s).i = s.i := rfl
@[simp] theorem setOutcome_pc (o : StepOutcome) (s : State) : (setOutcome o s).pc = s.pc := rfl
@[simp] theorem setOutcome_stack (o : StepOutcome) (s : State) : (setOutcome o s).stack = s.stack := rfl
@[simp] theorem setOutcome_sp (o : StepOutcome) (s : State) : (setOutcome o s).sp = s.sp := rfl
@[simp] theorem setOutcome_dt (o : StepOutcome) (s : State) : (setOutcome o s).dt = s.dt := rfl
@[simp] theorem setOutcome_st (o : StepOutcome) (s : State) : (setOutcome o s).st = s.st := rfl
@[simp] theorem setOutcome_fb (o : StepOutcome) (s : State) : (setOutcome o s).fb = s.fb := rfl
@[simp] theorem setOutcome_drawFlag (o : StepOutcome) (s : State) : (setOutcome o s).drawFlag = s.drawFlag := rfl
@[simp] theorem setOutcome_key (o : StepOutcome) (s : State) : (setOutcome o s).key = s.key := rfl
@[simp] theorem setOutcome_rndIndex (o : StepOutcome) (s : State) : (setOutcome o s).rndIndex = s.rndIndex := rfl
@[simp] theorem setOutcome_tone (o : StepOutcome) (s : State) : (setOutcome o s).tone = s.tone := rfl
@[simp] theorem setOutcome_outcome (o : StepOutcome) (s : State) : (setOutcome o s).outcome = o := rfl
@[simp] theorem readV_setOutcome (r : Nibble) (o : StepOutcome) (s : State) : readV r (setOutcome o s) = readV r s := rfl
@[simp] theorem memRead_setOutcome (m : Nat) (o : StepOutcome) (s : State) : memRead m (setOutcome o s) = memRead m s := rfl
@[simp] theorem keyPressed_setOutcome (r : Nibble) (o : StepOutcome) (s : State) : keyPressed r (setOutcome o s) = keyPressed r s := rfl
@[simp] theorem rndByte_setOutcome (o : StepOutcome) (s : State) : rndByte (setOutcome o s) = rndByte s := rfl
@[simp] theorem indexed_setOutcome (j : Nat) (o : StepOutcome) (s : State) : indexed j (setOutcome o s) = indexed j s := rfl
@[simp] theorem indexPast_setOutcome (j : Nat) (o : StepOutcome) (s : State) : indexPast j (setOutcome o s) = indexPast j s := rfl

/-! ### setTone -/

@[simp] theorem setTone_mem (b : Bool) (s : State) : (setTone b s).mem = s.mem := rfl
@[simp] theorem setTone_v (b : Bool) (s : State) : (setTone b s).v = s.v := rfl
@[simp] theorem setTone_i (b : Bool) (s : State) : (setTone b s).i = s.i := rfl
@[simp] theorem setTone_pc (b : Bool) (s : State) : (setTone b s).pc = s.pc := rfl
@[simp] theorem setTone_stack (b : Bool) (s : State) : (setTone b s).stack = s.stack := rfl
@[simp] theorem setTone_sp (b : Bool) (s : State) : (setTone b s).sp = s.sp := rfl
@[simp] theorem setTone_dt (b : Bool) (s : State) : (setTone b s).dt = s.dt := rfl
@[simp] theorem setTone_st (b : Bool) (s : State) : (setTone b s).st = s.st := rfl
@[simp] theorem setTone_fb (b : Bool) (s : State) : (setTone b s).fb = s.fb := rfl
@[simp] theorem setTone_drawFlag (b : Bool) (s : State) : (setTone b s).drawFlag = s.drawFlag := rfl
@[simp] theorem setTone_key (b : Bool) (s : State) : (setTone b s).key = s.key := rfl
@[simp] theorem setTone_rndIndex (b : Bool) (s : State) : (setTone b s).rndIndex = s.rndIndex := rfl
@[simp] theorem setTone_tone (b : Bool) (s : State) : (setTone b s).tone = b := rfl
@[simp] theorem setTone_outcome (b : Bool) (s : State) : (setTone b s).outcome = s.outcome := rfl
@[simp] theorem readV_setTone (r : Nibble) (b : Bool) (s : State) : readV r (setTone b s) = readV r s := rfl
@[simp] theorem memRead_setTone (m : Nat) (b : Bool) (s : State) : memRead m (setTone b s) = memRead m s := rfl
@[simp] theorem keyPressed_setTone (r : Nibble) (b : Bool) (s : State) : keyPressed r (setTone b s) = keyPressed r s := rfl
@[simp] theorem rndByte_setTone (b : Bool) (s : State) : rndByte (setTone b s) = rndByte s := rfl
@[simp] theorem indexed_setTone (j : Nat) (b : Bool) (s : State) : indexed j (setTone b s) = indexed j s := rfl
@[simp] theorem indexPast_setTone (j : Nat) (b : Bool) (s : State) : indexPast j (setTone b s) = indexPast j s := rfl

/-! ### keyDown -/

@[simp] theorem keyDown_mem (k : Nibble) (s : State) : (keyDown k s).mem = s.mem := rfl
@[simp] theorem keyDown_v (k : Nibble) (s : State) : (keyDown k s).v = s.v := rfl
@[simp] theorem keyDown_i (k : Nibble) (s : State) : (keyDown k s).i = s.i := rfl
@[simp] theorem keyDown_pc (k : Nibble) (s : State) : (keyDown k s).pc = s.pc := rfl
@[simp] theorem keyDown_stack (k : Nibble) (s : State) : (keyDown k s).stack = s.stack := rfl
@[simp] theorem keyDown_sp (k : Nibble) (s : State) : (keyDown k s).sp = s.sp := rfl
@[simp] theorem keyDown_dt (k : Nibble) (s : State) : (keyDown k s).dt = s.dt := rfl
@[simp] theorem keyDown_st (k : Nibble) (s : State) : (keyDown k s).st = s.st := rfl
@[simp] theorem keyDown_fb (k : Nibble) (s : State) : (keyDown k s).fb = s.fb := rfl
@[simp] theorem keyDown_drawFlag (k : Nibble) (s : State) : (keyDown k s).drawFlag = s.drawFlag := rfl
@[simp] theorem keyDown_key (k : Nibble) (s : State) : (keyDown k s).key = s.key.set k.toNat true k.isLt := rfl
@[simp] theorem keyDown_rndIndex (k : Nibble) (s : State) : (keyDown k s).rndIndex = s.rndIndex := rfl
@[simp] theorem keyDown_tone (k : Nibble) (s : State) : (keyDown k s).tone = s.tone := rfl
@[simp] theorem keyDown_outcome (k : Nibble) (s : State) : (keyDown k s).outcome = s.outcome := rfl
@[simp] theorem readV_keyDown (r : Nibble) (k : Nibble) (s : State) : readV r (keyDown k s) = readV r s := rfl
@[simp] theorem memRead_keyDown (m : Nat) (k : Nibble) (s : State) : memRead m (keyDown k s) = memRead m s := rfl
@[simp] theorem rndByte_keyDown (k : Nibble) (s : State) : rndByte (keyDown k s) = rndByte s := rfl
@[simp] theorem indexed_keyDown (j : Nat) (k : Nibble) (s : State) : indexed j (keyDown k s) = indexed j s := rfl
@[simp] theorem indexPast_keyDown (j : Nat) (k : Nibble) (s : State) : indexPast j (keyDown k s) = indexPast j s := rfl

/-! ### keyUp -/

@[simp] theorem keyUp_mem (k : Nibble) (s : State) : (keyUp k s).mem = s.mem := rfl
@[simp] theorem keyUp_v (k : Nibble) (s : State) : (keyUp k s).v = s.v := rfl
@[simp] theorem keyUp_i (k : Nibble) (s : State) : (keyUp k s).i = s.i := rfl
@[simp] theorem keyUp_pc (k : Nibble) (s : State) : (keyUp k s).pc = s.pc := rfl
@[simp] theorem keyUp_stack (k : Nibble) (s : State) : (keyUp k s).stack = s.stack := rfl
@[simp] theorem keyUp_sp (k : Nibble) (s : State) : (keyUp k s).sp = s.sp := rfl
@[simp] theorem keyUp_dt (k : Nibble) (s : State) : (keyUp k s).dt = s.dt := rfl
@[simp] theorem keyUp_st (k : Nibble) (s : State) : (keyUp k s).st = s.st := rfl
@[simp] theorem keyUp_fb (k : Nibble) (s : State) : (keyUp k s).fb = s.fb := rfl
@[simp] theorem keyUp_drawFlag (k : Nibble) (s : State) : (keyUp k s).drawFlag = s.drawFlag := rfl
@[simp] theorem keyUp_key (k : Nibble) (s : State) : (keyUp k s).key = s.key.set k.toNat false k.isLt := rfl
@[simp] theorem keyUp_rndIndex (k : Nibble) (s : State) : (keyUp k s).rndIndex = s.rndIndex := rfl
@[simp] theorem keyUp_tone (k : Nibble) (s : State) : (keyUp k s).tone = s.tone := rfl
@[simp] theorem keyUp_outcome (k : Nibble) (s : State) : (keyUp k s).outcome = s.outcome := rfl
@[simp] theorem readV_keyUp (r : Nibble) (k : Nibble) (s : State) : readV r (keyUp k s) = readV r s := rfl
@[simp] theorem memRead_keyUp (m : Nat) (k : Nibble) (s : State) : memRead m (keyUp k s) = memRead m s := rfl
@[simp] theorem rndByte_keyUp (k : Nibble) (s : State) : rndByte (keyUp k s) = rndByte s := rfl
@[simp] theorem indexed_keyUp (j : Nat) (k : Nibble) (s : State) : indexed j (keyUp k s) = indexed j s := rfl
@[simp] theorem indexPast_keyUp (j : Nat) (k : Nibble) (s : State) : indexPast j (keyUp k s) = indexPast j s := rfl

/-! ### ackRedraw -/

@[simp] theorem ackRedraw_mem (s : State) : (ackRedraw s).mem = s.mem := rfl
@[simp] theorem ackRedraw_v (s : State) : (ackRedraw s).v = s.v := rfl
@[simp] theorem ackRedraw_i (s : State) : (ackRedraw s).i = s.i := rfl
@[simp] theorem ackRedraw_pc (s : State) : (ackRedraw s).pc = s.pc := rfl
@[simp] theorem ackRedraw_stack (s : State) : (ackRedraw s).stack = s.stack := rfl
@[simp] theorem ackRedraw_sp (s : State) : (ackRedraw s).sp = s.sp := rfl
@[simp] theorem ackRedraw_dt (s : State) : (ackRedraw s).dt = s.dt := rfl
@[simp] theorem ackRedraw_st (s : State) : (ackRedraw s).st = s.st := rfl
@[simp] theorem ackRedraw_fb (s : State) : (ackRedraw s).fb = s.fb := rfl
@[simp] theorem ackRedraw_drawFlag (s : State) : (ackRedraw s).drawFlag = false := rfl
@[simp] theorem ackRedraw_key (s : State) : (ackRedraw s).key = s.key := rfl
@[simp] theorem ackRedraw_rndIndex (s : State) : (ackRedraw s).rndIndex = s.rndIndex := rfl
@[simp] theorem ackRedraw_tone (s : State) : (ackRedraw s).tone = s.tone := rfl
@[simp] theorem ackRedraw_outcome (s : State) : (ackRedraw s).outcome = s.outcome := rfl
@[simp] theorem readV_ackRedraw (r : Nibble) (s : State) : readV r (ackRedraw s) = readV r s := rfl
@[simp] theorem memRead_ackRedraw (m : Nat) (s : State) : memRead m (ackRedraw s) = memRead m s := rfl
@[simp] theorem keyPressed_ackRedraw (r : Nibble) (s : State) : keyPressed r (ackRedraw s) = keyPressed r s := rfl
@[simp] theorem rndByte_ackRedraw (s : State) : rndByte (ackRedraw s) = rndByte s := rfl
@[simp] theorem indexed_ackRedraw (j : Nat) (s : State) : indexed j (ackRedraw s) = indexed j s := rfl
@[simp] theorem indexPast_ackRedraw (j : Nat) (s : State) : indexPast j (ackRedraw s) = indexPast j s := rfl

/-! ### Reads of what was written -/

/-- Reading a register after writing one (R7, R11). -/
@[simp] theorem readV_writeV (r x : Nibble) (b : Byte) (s : State) :
    readV r (writeV x b s) = if r = x then b else readV r s := by
  unfold readV writeV
  by_cases h : r = x
  · subst h; simp
  · have h' : x.toNat ≠ r.toNat := fun e => h (BitVec.eq_of_toNat_eq e.symm)
    simp [h, h']

/-- Reading a key after a key-down event (R206). -/
@[simp] theorem keyPressed_keyDown (r k : Nibble) (s : State) :
    keyPressed r (keyDown k s) = if r = k then true else keyPressed r s := by
  unfold keyPressed keyDown
  by_cases h : r = k
  · subst h; simp
  · have h' : k.toNat ≠ r.toNat := fun e => h (BitVec.eq_of_toNat_eq e.symm)
    simp [h, h']

/-- Reading a key after a key-up event (R206). -/
@[simp] theorem keyPressed_keyUp (r k : Nibble) (s : State) :
    keyPressed r (keyUp k s) = if r = k then false else keyPressed r s := by
  unfold keyPressed keyUp
  by_cases h : r = k
  · subst h; simp
  · have h' : k.toNat ≠ r.toNat := fun e => h (BitVec.eq_of_toNat_eq e.symm)
    simp [h, h']

end Sys2Proof.Machine
end

