-- ==== Sys2Proof/Laws/Memory.lean ====
section
/-! SUPPORT. The laws of memory: a read after a write, for any list of cells, and that every operation keeps the canonical
form. -/

namespace Sys2Proof.Machine

open Sys2Proof

/-! ### Reading -/

theorem lookup_erase (m : Memory) (a c : Nat) :
    Memory.lookup (Memory.erase m a) c = if c = a then none else Memory.lookup m c := by
  induction m with
  | nil => simp [Memory.erase, Memory.lookup]
  | cons d m ih =>
    obtain ⟨k, b⟩ := d
    by_cases hka : k = a
    · subst hka
      by_cases hc : c = k
      · subst hc; simpa [Memory.erase] using ih
      · simp [Memory.erase, ih, hc, Memory.lookup, Ne.symm hc]
    · by_cases hkc : k = c
      · subst hkc; simp [Memory.erase, Memory.lookup, hka]
      · simp [Memory.erase, Memory.lookup, hka, hkc, ih]

theorem lookup_insert (m : Memory) (a c : Nat) (v : Byte) :
    Memory.lookup (Memory.insert m a v) c = if c = a then some v else Memory.lookup m c := by
  induction m with
  | nil => simp [Memory.insert, Memory.lookup, eq_comm]
  | cons d m ih =>
    obtain ⟨k, b⟩ := d
    by_cases h1 : k < a
    · by_cases hkc : k = c
      · subst hkc; simp [Memory.insert, Memory.lookup, h1, Nat.ne_of_lt h1]
      · simp [Memory.insert, Memory.lookup, h1, hkc, ih]
    · by_cases h2 : k = a
      · subst h2
        by_cases hkc : k = c
        · simp [Memory.insert, Memory.lookup, hkc]
        · simp [Memory.insert, Memory.lookup, hkc, Ne.symm hkc]
      · by_cases hc : a = c
        · subst hc; simp [Memory.insert, Memory.lookup, h1, h2]
        · simp [Memory.insert, Memory.lookup, h1, h2, hc, Ne.symm hc]

/-- A read after a write (R36): the byte written at its address, every other byte as before; for any list of cells. -/
theorem read_write (m : Memory) (a c : Addr) (v : Byte) :
    Memory.read (Memory.write m a v) c = if c = a then v else Memory.read m c := by
  have hne : ∀ {x : Addr}, x ≠ a → x.toNat ≠ a.toNat := fun h e => h (BitVec.eq_of_toNat_eq e)
  unfold Memory.read Memory.write
  by_cases hv : v = Memory.unlisted a.toNat <;> by_cases hc : c = a
  · simp [hv, hc, lookup_erase]
  · simp [hv, hc, lookup_erase, hne hc]
  · simp [hv, hc, lookup_insert]
  · simp [hv, hc, lookup_insert, hne hc]

/-- MemRead after MemWrite (R32, R36). -/
theorem memRead_memWrite (a c : Nat) (v : Byte) (s : State) :
    memRead c (memWrite a v s) = if memAddr c = memAddr a then v else memRead c s := by
  simp [memRead, memWrite, read_write]

/-- With nothing listed every address reads as its reset contents (R25). -/
theorem read_nil (a : Addr) : Memory.read [] a = Memory.unlisted a.toNat := rfl

@[simp] theorem memAddr_toNat (a : Addr) : memAddr a.toNat = a := by simp [memAddr]

/-! ### The canonical form -/

theorem mem_erase {m : Memory} {a : Nat} {c : Host.Cell} (h : c ∈ Memory.erase m a) : c ∈ m := by
  induction m with
  | nil => simp [Memory.erase] at h
  | cons d m ih =>
    obtain ⟨k, b⟩ := d
    by_cases hka : k = a
    · simp only [Memory.erase, hka, if_true] at h
      exact List.mem_cons_of_mem _ (ih h)
    · simp only [Memory.erase, hka, if_false, List.mem_cons] at h
      rcases h with h | h
      · simp [h]
      · exact List.mem_cons_of_mem _ (ih h)

theorem mem_insert {m : Memory} {a : Nat} {v : Byte} {c : Host.Cell} (h : c ∈ Memory.insert m a v) :
    c = (a, v) ∨ c ∈ m := by
  induction m with
  | nil => simpa [Memory.insert] using h
  | cons d m ih =>
    obtain ⟨k, b⟩ := d
    by_cases h1 : k < a
    · simp only [Memory.insert, h1, if_true, List.mem_cons] at h
      rcases h with h | h
      · simp [h]
      · rcases ih h with h | h <;> simp [h]
    · by_cases h2 : k = a
      · simp only [Memory.insert, h2, if_false, if_true, List.mem_cons, lt_irrefl] at h
        rcases h with h | h <;> simp [h]
      · simp only [Memory.insert, h1, h2, if_false, List.mem_cons] at h
        rcases h with h | h | h <;> simp [h]

theorem erase_sorted {m : Memory} {a : Nat} (h : m.Pairwise (fun c d => c.1 < d.1)) :
    (Memory.erase m a).Pairwise (fun c d => c.1 < d.1) := by
  induction m with
  | nil => simp [Memory.erase]
  | cons d m ih =>
    obtain ⟨k, b⟩ := d
    rw [List.pairwise_cons] at h
    by_cases hka : k = a
    · simpa [Memory.erase, hka] using ih h.2
    · simp only [Memory.erase, hka, if_false, List.pairwise_cons]
      exact ⟨fun c hc => h.1 c (mem_erase hc), ih h.2⟩

theorem insert_sorted {m : Memory} {a : Nat} {v : Byte} (h : m.Pairwise (fun c d => c.1 < d.1)) :
    (Memory.insert m a v).Pairwise (fun c d => c.1 < d.1) := by
  induction m with
  | nil => simp [Memory.insert]
  | cons d m ih =>
    obtain ⟨k, b⟩ := d
    rw [List.pairwise_cons] at h
    by_cases h1 : k < a
    · simp only [Memory.insert, h1, if_true, List.pairwise_cons]
      refine ⟨fun c hc => ?_, ih h.2⟩
      rcases mem_insert hc with rfl | hc
      · exact h1
      · exact h.1 c hc
    · by_cases h2 : k = a
      · subst h2
        simp only [Memory.insert, lt_irrefl, if_false, if_true, List.pairwise_cons]
        exact ⟨h.1, h.2⟩
      · simp only [Memory.insert, h1, h2, if_false, List.pairwise_cons]
        have hak : a < k := by omega
        refine ⟨fun c hc => ?_, h.1, h.2⟩
        rcases List.mem_cons.mp hc with rfl | hc
        · exact hak
        · exact Nat.lt_trans hak (h.1 c hc)

/-- Every write keeps the canonical form. -/
theorem write_wf {m : Memory} (a : Addr) (v : Byte) (h : Memory.wf m) : Memory.wf (Memory.write m a v) := by
  unfold Memory.write
  split
  · exact ⟨erase_sorted h.1, fun c hc => h.2 c (mem_erase hc)⟩
  · refine ⟨insert_sorted h.1, fun c hc => ?_⟩
    rcases mem_insert hc with rfl | hc
    · exact ⟨a.isLt, by assumption⟩
    · exact h.2 c hc

/-- MemWrite keeps the canonical form. -/
theorem memWrite_wf {s : State} (a : Nat) (v : Byte) (h : Memory.wf s.mem) : Memory.wf (memWrite a v s).mem :=
  write_wf _ v h

/-- The memory of State.reset is in canonical form. -/
theorem reset_mem_wf : Memory.wf State.reset.mem := ⟨List.Pairwise.nil, by simp [State.reset]⟩

/-- In canonical form equal contents are equal lists: the list is determined by what every address reads as. -/
theorem wf_ext {m n : Memory} (hm : Memory.wf m) (hn : Memory.wf n)
    (h : ∀ a : Addr, Memory.read m a = Memory.read n a) : m = n := by
  have look : ∀ {l : Memory}, l.Pairwise (fun c d => c.1 < d.1) → ∀ c : Host.Cell,
      c ∈ l ↔ Memory.lookup l c.1 = some c.2 := by
    intro l hl
    induction l with
    | nil => simp [Memory.lookup]
    | cons d l ih =>
      obtain ⟨k, b⟩ := d
      rw [List.pairwise_cons] at hl
      rintro ⟨k', b'⟩
      by_cases hk : k = k'
      · subst hk
        have : (k, b') ∉ l := fun hc => Nat.lt_irrefl k (hl.1 (k, b') hc)
        simp [Memory.lookup, this, eq_comm]
      · simp [Memory.lookup, hk, Ne.symm hk, ih hl.2]
  have sub : ∀ {l l' : Memory}, Memory.wf l → Memory.wf l' →
      (∀ a : Addr, Memory.read l a = Memory.read l' a) → ∀ c ∈ l, c ∈ l' := by
    rintro l l' hl hl' hr ⟨k, b⟩ hc
    have hk := hl.2 _ hc
    have hlook := (look hl.1 (k, b)).mp hc
    have hlt : k < 2 ^ 12 := hk.1
    have := hr (BitVec.ofNat 12 k)
    simp only [Memory.read, BitVec.toNat_ofNat, Nat.mod_eq_of_lt hlt, hlook, Option.getD_some] at this
    rw [look hl'.1]
    cases hx : Memory.lookup l' k with
    | none => simp [hx] at this; exact absurd this hk.2
    | some y => simp [hx] at this; simp [this]
  have anti : ∀ {l l' : Memory}, l.Pairwise (fun c d => c.1 < d.1) → l'.Pairwise (fun c d => c.1 < d.1) →
      (∀ c, c ∈ l ↔ c ∈ l') → l = l' := by
    intro l l' hl hl' hmem
    have nd : ∀ {p : Memory}, p.Pairwise (fun c d => c.1 < d.1) → p.Nodup := fun hp =>
      hp.imp (fun {c d} hlt e => by subst e; exact Nat.lt_irrefl _ hlt)
    have hp : l.Perm l' := (List.perm_ext_iff_of_nodup (nd hl) (nd hl')).mpr hmem
    exact hp.eq_of_pairwise (fun c d _ _ h1 h2 => absurd (Nat.lt_trans h1 h2) (Nat.lt_irrefl _)) hl hl'
  exact anti hm.1 hn.1 (fun c => ⟨sub hm hn h c, sub hn hm (fun a => (h a).symm) c⟩)

end Sys2Proof.Machine
end

