-- ==== Sys2Proof/Laws/Ops.lean ====
section
/-! SUPPORT. One specification lemma per shared operation: everything it can do, so that callers cite it and do not unfold
it. -/

namespace Sys2Proof.Machine

open Sys2Proof

/-! ### How a meaning ends -/

theorem completed_eq (s : State) : completed s = .next (setOutcome .completed s) := rfl
theorem blocked_eq (s : State) : blocked s = .next (setOutcome .blocked s) := rfl
theorem raise_eq (f : Fault) : raise f = .fault f := rfl

/-! ### The call stack (R111, R113) -/

/-- A push fails exactly on a full stack. -/
theorem pushPc_none {s : State} : pushPc s = none ↔ s.sp.val = 16 := by
  have := s.sp.isLt
  unfold pushPc
  split <;> simp <;> omega

/-- What a push answers: STACK[SP] is the un-advanced PC, SP is one more, every other entry and everything else as
before. -/
theorem pushPc_some {s t : State} (h : pushPc s = some t) :
    ∃ hs : s.sp.val < 16, t.sp.val = s.sp.val + 1 ∧ t.stack = s.stack.set s.sp.val s.pc hs ∧
      t = { s with stack := t.stack, sp := t.sp } := by
  unfold pushPc at h
  split at h
  · rename_i hs; cases h; exact ⟨hs, rfl, rfl, rfl⟩
  · cases h

/-- A pop fails exactly on an empty stack. -/
theorem popPc_none {s : State} : popPc s = none ↔ s.sp.val = 0 := by
  unfold popPc
  split <;> simp <;> omega

/-- What a pop answers: SP is one less, PC is the entry it names, the stack's entries and everything else as before. -/
theorem popPc_some {s t : State} (h : popPc s = some t) :
    ∃ hs : s.sp.val - 1 < 16, 0 < s.sp.val ∧ t.sp.val = s.sp.val - 1 ∧ t.pc = s.stack[s.sp.val - 1]'hs ∧
      t = { s with pc := t.pc, sp := t.sp } := by
  unfold popPc at h
  split at h
  · rename_i hs; cases h; exact ⟨by have := s.sp.isLt; omega, hs, rfl, rfl, rfl⟩
  · cases h

/-! ### Transfers through I (R134, R135) -/

theorem memAddr_inj {a b : Nat} (h : a < b) (hb : b < a + 4096) : memAddr a ≠ memAddr b := by
  intro e
  have := congrArg BitVec.toNat e
  simp only [memAddr, BitVec.toNat_ofNat] at this
  omega

/-- Storing registers changes nothing but memory. -/
theorem storeV_frame (n : Nat) (s : State) : storeV n s = { s with mem := (storeV n s).mem } := by
  unfold storeV
  induction n with
  | zero => rfl
  | succ n ih => rw [List.range_succ, List.foldl_append, ih]; rfl

/-- After storing n registers (n at most 16) the byte at I + k is V[k] for k below n, and every other byte is as
before. -/
theorem storeV_read (n : Nat) (hn : n ≤ 16) (s : State) (a : Addr) :
    byteAt a (storeV n s) =
      if (a - s.i).toNat < n then readV (BitVec.ofNat 4 (a - s.i).toNat) s else byteAt a s := by
  induction n with
  | zero => simp [storeV]
  | succ n ih =>
    have hstep : storeV (n + 1) s = memWrite (indexed n s) (readV (BitVec.ofNat 4 n) s) (storeV n s) := by
      simp [storeV, List.range_succ]
    have hat : memAddr a.toNat = memAddr (indexed n s) ↔ (a - s.i).toNat = n := by
      have := a.isLt; have := s.i.isLt
      rw [memAddr_toNat, memAddr, indexed, ← BitVec.toNat_inj, BitVec.toNat_ofNat, BitVec.toNat_sub]
      omega
    rw [hstep, byteAt, memRead_memWrite]
    by_cases h : (a - s.i).toNat = n
    · rw [if_pos (hat.mpr h), if_pos (by omega), h]
    · rw [if_neg (fun e => h (hat.mp e))]
      have := ih (by omega)
      rw [byteAt] at this
      rw [this]
      by_cases h2 : (a - s.i).toNat < n
      · rw [if_pos h2, if_pos (by omega)]
      · rw [if_neg h2, if_neg (by omega)]

/-- Storing registers keeps the canonical form. -/
theorem storeV_wf (n : Nat) (s : State) (h : Memory.wf s.mem) : Memory.wf (storeV n s).mem := by
  unfold storeV
  induction n with
  | zero => exact h
  | succ n ih => rw [List.range_succ, List.foldl_append]; exact memWrite_wf _ _ ih

/-- Loading registers changes nothing but V. -/
theorem loadV_frame (n : Nat) (s : State) : loadV n s = { s with v := (loadV n s).v } := by
  unfold loadV
  induction n with
  | zero => rfl
  | succ n ih => rw [List.range_succ, List.foldl_append, ih]; rfl

/-- After loading n registers (n at most 16) V[k] is the byte at I + k for k below n, and every other register is as
before. -/
theorem loadV_read (n : Nat) (hn : n ≤ 16) (s : State) (k : Nibble) :
    readV k (loadV n s) = if k.toNat < n then memRead (s.i.toNat + k.toNat) s else readV k s := by
  induction n with
  | zero => simp [loadV]
  | succ n ih =>
    have hstep : loadV (n + 1) s = writeV (BitVec.ofNat 4 n) (memRead (indexed n s) s) (loadV n s) := by
      simp [loadV, List.range_succ]
    have hk : k = BitVec.ofNat 4 n ↔ k.toNat = n := by
      rw [← BitVec.toNat_inj, BitVec.toNat_ofNat]; omega
    rw [hstep, readV_writeV, ih (by omega)]
    by_cases h : k.toNat = n
    · rw [if_pos (hk.mpr h), if_pos (by omega), h, indexed]
    · rw [if_neg (fun e => h (hk.mp e))]
      by_cases h2 : k.toNat < n
      · rw [if_pos h2, if_pos (by omega)]
      · rw [if_neg h2, if_neg (by omega)]

/-! ### Loading an image (R223) -/

/-- Storing an image changes nothing but memory. -/
theorem storeImage_frame (bs : List Byte) (a : Nat) (s : State) :
    storeImage bs a s = { s with mem := (storeImage bs a s).mem } := by
  induction bs generalizing a s with
  | nil => rfl
  | cons b bs ih => simp only [storeImage]; rw [ih]; rfl

/-- Storing an image keeps the canonical form. -/
theorem storeImage_wf (bs : List Byte) (a : Nat) (s : State) (h : Memory.wf s.mem) :
    Memory.wf (storeImage bs a s).mem := by
  induction bs generalizing a s with
  | nil => exact h
  | cons b bs ih => exact ih _ _ (memWrite_wf _ _ h)

/-- An address outside the image reads as before. -/
theorem storeImage_other (bs : List Byte) (a c : Nat) (s : State) (hc : c < a ∨ a + bs.length ≤ c)
    (ha : a + bs.length ≤ 4096) (hc' : c < 4096) : memRead c (storeImage bs a s) = memRead c s := by
  induction bs generalizing a s with
  | nil => rfl
  | cons b bs ih =>
    rw [List.length_cons] at hc ha
    rw [storeImage, ih (a + 1) _ (by omega) (by omega), memRead_memWrite, if_neg]
    rcases Nat.lt_or_ge c a with h | h
    · exact memAddr_inj h (by omega)
    · exact (memAddr_inj (a := a) (b := c) (by omega) (by omega)).symm

/-- The j-th byte of the image is at a + j. -/
theorem storeImage_at (bs : List Byte) (a j : Nat) (s : State) (hj : j < bs.length) (ha : a + bs.length ≤ 4096) :
    memRead (a + j) (storeImage bs a s) = bs[j] := by
  induction bs generalizing a j s with
  | nil => simp at hj
  | cons b bs ih =>
    rw [List.length_cons] at hj ha
    cases j with
    | zero =>
      rw [storeImage, storeImage_other _ _ _ _ (by omega) (by omega) (by omega), memRead_memWrite]
      simp
    | succ j =>
      have := ih (a + 1) j (memWrite a b s) (by omega) (by omega)
      rw [storeImage, show a + (j + 1) = a + 1 + j by omega, this]
      simp

/-! ### Reset for any FONT (R25, R220) -/

/-- Reset with a FONT differs from State.reset in memory only. -/
theorem resetWith_frame (font : Font) : resetWith font = { State.reset with mem := (resetWith font).mem } :=
  storeImage_frame _ _ _

/-- Its memory is in canonical form. -/
theorem resetWith_wf (font : Font) : Memory.wf (resetWith font).mem := storeImage_wf _ _ _ reset_mem_wf

/-- What each address reads as: the FONT byte below 80, and 0 above. -/
theorem memRead_resetWith (font : Font) (a : Nat) (ha : a < 4096) :
    memRead a (resetWith font) = if h : a < 80 then font[a] else 0#8 := by
  have hlen : font.toList.length = 80 := by simp
  unfold resetWith
  split
  · rename_i h
    have := storeImage_at font.toList Config.fontBase a State.reset (by omega) (by rw [hlen]; decide)
    simpa [Config.fontBase] using this
  · rename_i h
    rw [storeImage_other _ _ _ _ (by rw [hlen]; simp only [Config.fontBase]; omega) (by rw [hlen]; decide) ha]
    have hm : a % 4096 = a := Nat.mod_eq_of_lt ha
    simp [memRead, State.reset, read_nil, Memory.unlisted, memAddr, Config.fontLen, hm, h]

/-! ### The display (R173) -/

/-- Flipping a pixel flips that pixel and no other. -/
theorem get_flip (f : FrameBuffer) (x y x' y' : Nat) :
    FrameBuffer.get (FrameBuffer.flip f x y) x' y' =
      if x' % 64 = x % 64 ∧ y' % 32 = y % 32 then !FrameBuffer.get f x' y' else FrameBuffer.get f x' y' := by
  unfold FrameBuffer.flip FrameBuffer.get
  by_cases hy : y' % 32 = y % 32
  · by_cases hx : x' % 64 = x % 64
    · simp [hx, hy]
    · simp [hy, hx, Ne.symm hx]
  · simp [hy, Ne.symm hy]

/-- The clear display has no pixel set. -/
@[simp] theorem get_clear (x y : Nat) : FrameBuffer.get FrameBuffer.clear x y = false := by
  simp [FrameBuffer.get, FrameBuffer.clear]

/-- Two buffers with the same 64 by 32 pixels are equal. -/
theorem frameBuffer_ext {f g : FrameBuffer}
    (h : ∀ x y, x < 64 → y < 32 → FrameBuffer.get f x y = FrameBuffer.get g x y) : f = g := by
  apply Vector.ext
  intro y hy
  apply Vector.ext
  intro x hx
  simpa [FrameBuffer.get, Nat.mod_eq_of_lt hx, Nat.mod_eq_of_lt hy] using h x y hx hy

/-- The columns of a row, from offset 0 to n - 1. -/
theorem plotCols_spec (x0 py n : Nat) (hn : n ≤ 8) (b : Byte) (acc : FrameBuffer × Bool) :
    let out := (List.range n).foldl (fun acc c => if b.getLsbD (7 - c) then plotBit (x0 + c) py acc else acc) acc
    (∀ x y, FrameBuffer.get out.1 x y =
      (FrameBuffer.get acc.1 x y ^^
        decide (y % 32 = py % 32 ∧ ∃ c < n, b.getLsbD (7 - c) = true ∧ x % 64 = (x0 + c) % 64))) ∧
    (out.2 = true ↔ acc.2 = true ∨
      ∃ c < n, b.getLsbD (7 - c) = true ∧ FrameBuffer.get acc.1 (x0 + c) py = true) := by
  induction n with
  | zero => simp
  | succ n ih =>
    obtain ⟨ih1, ih2⟩ := ih (by omega)
    simp only [List.range_succ, List.foldl_append, List.foldl_cons, List.foldl_nil]
    generalize List.foldl _ acc (List.range n) = out at ih1 ih2
    by_cases hb : b.getLsbD (7 - n) = true
    · rw [if_pos hb]
      have hold : FrameBuffer.get out.1 (x0 + n) py = FrameBuffer.get acc.1 (x0 + n) py := by
        rw [ih1]
        have : ¬∃ c < n, b.getLsbD (7 - c) = true ∧ (x0 + n) % 64 = (x0 + c) % 64 := by
          rintro ⟨c, hc, -, h⟩; omega
        simp [this]
      refine ⟨fun x y => ?_, ?_⟩
      · rw [plotBit, get_flip, ih1]
        by_cases hy : y % 32 = py % 32
        · by_cases hx : x % 64 = (x0 + n) % 64
          · have h1 : ¬∃ c < n, b.getLsbD (7 - c) = true ∧ x % 64 = (x0 + c) % 64 := by
              rintro ⟨c, hc, -, h⟩; omega
            have h2 : ∃ c < n + 1, b.getLsbD (7 - c) = true ∧ x % 64 = (x0 + c) % 64 := ⟨n, by omega, hb, hx⟩
            rw [if_pos ⟨hx, hy⟩, decide_eq_false (fun h => h1 h.2), decide_eq_true ⟨hy, h2⟩]
            simp
          · rw [if_neg (fun h => hx h.1)]
            congr 1
            apply decide_eq_decide.mpr
            constructor
            · rintro ⟨h, c, hc, h3⟩; exact ⟨h, c, by omega, h3⟩
            · rintro ⟨h, c, hc, h3, h4⟩
              exact ⟨h, c, by rcases Nat.lt_succ_iff_lt_or_eq.mp hc with h5 | rfl
                              · exact h5
                              · exact absurd h4 hx, h3, h4⟩
        · rw [if_neg (fun h => hy h.2)]
          simp [hy]
      · simp only [plotBit, Bool.or_eq_true, ih2, hold]
        constructor
        · rintro ((h | ⟨c, hc, h⟩) | h)
          · exact .inl h
          · exact .inr ⟨c, by omega, h⟩
          · exact .inr ⟨n, by omega, hb, h⟩
        · rintro (h | ⟨c, hc, h1, h2⟩)
          · exact .inl (.inl h)
          · rcases Nat.lt_succ_iff_lt_or_eq.mp hc with h5 | rfl
            · exact .inl (.inr ⟨c, h5, h1, h2⟩)
            · exact .inr h2
    · rw [if_neg hb]
      have key : ∀ p : Nat → Prop, (∃ c < n + 1, b.getLsbD (7 - c) = true ∧ p c) ↔
          ∃ c < n, b.getLsbD (7 - c) = true ∧ p c := by
        intro p
        constructor
        · rintro ⟨c, hc, h1, h2⟩
          rcases Nat.lt_succ_iff_lt_or_eq.mp hc with h5 | rfl
          · exact ⟨c, h5, h1, h2⟩
          · exact absurd h1 hb
        · rintro ⟨c, hc, h⟩; exact ⟨c, by omega, h⟩
      refine ⟨fun x y => ?_, ?_⟩
      · rw [ih1]; congr 1; exact decide_eq_decide.mpr (and_congr Iff.rfl (key (fun c => x % 64 = (x0 + c) % 64)).symm)
      · rw [ih2, key (fun c => FrameBuffer.get acc.1 (x0 + c) py = true)]

/-- One row of a sprite: it flips exactly the pixels under its 1 bits, and notes a collision when one of them was
set. -/
theorem plotRow_spec (x0 py : Nat) (b : Byte) (acc : FrameBuffer × Bool) :
    (∀ x y, FrameBuffer.get (plotRow x0 py b acc).1 x y =
      (FrameBuffer.get acc.1 x y ^^
        decide (y % 32 = py % 32 ∧ ∃ c < (8 : Nat), b.getLsbD (7 - c) = true ∧ x % 64 = (x0 + c) % 64))) ∧
    ((plotRow x0 py b acc).2 = true ↔ acc.2 = true ∨
      ∃ c < (8 : Nat), b.getLsbD (7 - c) = true ∧ FrameBuffer.get acc.1 (x0 + c) py = true) :=
  plotCols_spec x0 py 8 (le_refl 8) b acc

/-- The rows of a sprite, from row 0 to row n - 1, n at most 32: the draw flips exactly the pixels under its 1 bits, each
once, and notes a collision when one of them was set before. -/
theorem plotSprite_spec (x0 y0 n : Nat) (hn : n ≤ 32) (s : State) :
    (∀ x y, FrameBuffer.get (plotSprite x0 y0 n s).1 x y =
      (FrameBuffer.get s.fb x y ^^ decide (∃ r < n, y % 32 = (y0 + r) % 32 ∧
        ∃ c < (8 : Nat), (memRead (indexed r s) s).getLsbD (7 - c) = true ∧ x % 64 = (x0 + c) % 64))) ∧
    ((plotSprite x0 y0 n s).2 = true ↔ ∃ r < n, ∃ c < (8 : Nat),
      (memRead (indexed r s) s).getLsbD (7 - c) = true ∧ FrameBuffer.get s.fb (x0 + c) (y0 + r) = true) := by
  induction n with
  | zero => simp [plotSprite]
  | succ n ih =>
    obtain ⟨ih1, ih2⟩ := ih (by omega)
    have hstep : plotSprite x0 y0 (n + 1) s =
        plotRow x0 (y0 + n) (memRead (indexed n s) s) (plotSprite x0 y0 n s) := by
      simp [plotSprite, List.range_succ]
    obtain ⟨h1, h2⟩ := plotRow_spec x0 (y0 + n) (memRead (indexed n s) s) (plotSprite x0 y0 n s)
    have split : ∀ p : Nat → Prop, (∃ r < n + 1, p r) ↔ (∃ r < n, p r) ∨ p n := by
      intro p
      constructor
      · rintro ⟨r, hr, h⟩
        rcases Nat.lt_succ_iff_lt_or_eq.mp hr with h' | rfl
        · exact .inl ⟨r, h', h⟩
        · exact .inr h
      · rintro (⟨r, hr, h⟩ | h)
        · exact ⟨r, by omega, h⟩
        · exact ⟨n, by omega, h⟩
    have rows : ∀ r < n, (y0 + n) % 32 ≠ (y0 + r) % 32 := by intro r hr; omega
    rw [hstep]
    refine ⟨fun x y => ?_, ?_⟩
    · rw [h1, ih1, Bool.xor_assoc]
      congr 1
      by_cases hy : y % 32 = (y0 + n) % 32
      · have hno : ¬∃ r < n, y % 32 = (y0 + r) % 32 ∧ ∃ c < (8 : Nat),
            (memRead (indexed r s) s).getLsbD (7 - c) = true ∧ x % 64 = (x0 + c) % 64 := by
          rintro ⟨r, hr, h, -⟩; exact rows r hr (hy ▸ h)
        rw [decide_eq_false hno, Bool.false_xor]
        exact decide_eq_decide.mpr ((split _).trans (or_iff_right hno)).symm
      · have hno : ¬(y % 32 = (y0 + n) % 32 ∧ ∃ c < (8 : Nat),
            (memRead (indexed n s) s).getLsbD (7 - c) = true ∧ x % 64 = (x0 + c) % 64) := fun h => hy h.1
        rw [decide_eq_false hno, Bool.xor_false]
        exact decide_eq_decide.mpr ((split _).trans (or_iff_left hno)).symm
    · rw [h2, ih2, split]
      refine or_congr Iff.rfl (exists_congr fun c => and_congr Iff.rfl (and_congr Iff.rfl ?_))
      have hno : ¬∃ r < n, (y0 + n) % 32 = (y0 + r) % 32 ∧ ∃ d < (8 : Nat),
          (memRead (indexed r s) s).getLsbD (7 - d) = true ∧ (x0 + c) % 64 = (x0 + d) % 64 := by
        rintro ⟨r, hr, h, -⟩; exact rows r hr h
      rw [ih1, decide_eq_false hno, Bool.xor_false]

/-! ### Keys (R155) -/

/-- No key is found exactly when none is pressed. -/
theorem lowestKey_none {s : State} : lowestKey s = none ↔ ∀ k, keyPressed k s = false := by
  simp only [lowestKey, List.find?_eq_none, List.mem_map, List.mem_range]
  constructor
  · intro h k
    have := h k ⟨k.toNat, k.isLt, by simp⟩
    simpa using this
  · intro h k _
    simp [h k]

/-- The key found is pressed, and no key below it is. -/
theorem lowestKey_some {s : State} {k : Nibble} (h : lowestKey s = some k) :
    keyPressed k s = true ∧ ∀ j : Nibble, j.toNat < k.toNat → keyPressed j s = false := by
  obtain ⟨hk, as, bs, hl, hb⟩ := List.find?_eq_some_iff_append.mp h
  refine ⟨hk, fun j hj => ?_⟩
  have hs : (as ++ k :: bs).Pairwise (fun a b : Nibble => a.toNat < b.toNat) := by rw [← hl]; decide
  have hm : j ∈ as ++ k :: bs := by
    rw [← hl]; exact List.mem_map.mpr ⟨j.toNat, List.mem_range.mpr j.isLt, by simp⟩
  rcases List.mem_append.mp hm with hm | hm
  · simpa using hb j hm
  · rcases List.mem_cons.mp hm with rfl | hm
    · exact absurd hj (Nat.lt_irrefl _)
    · exact absurd (Nat.lt_trans hj ((List.pairwise_cons.mp (List.pairwise_append.mp hs).2.1).1 j hm)) (Nat.lt_irrefl _)
end Sys2Proof.Machine
end

