-- ==== Sys2Proof/Laws/PerInstr.lean ====
section
/-! SUPPORT. Statements made per instruction: every instruction's opcode is selected by its own row of R54. -/

open Sys2Proof

/-- The opcode of the instruction matches the row of R54 that has the instruction's mnemonic. -/
def Sys2Proof.Laws.EncodesInRow.Statement (i : Instr) : Prop :=
  ∃ r ∈ opcodeTable, r.mnemonic = mnemonicOf i ∧ r.selects (encode i) = true

open Sys2Proof.Laws.EncodesInRow

theorem Sys2Proof.Laws.EncodesInRow.cls : Statement (.cls) :=
  ⟨⟨"CLS", 0xFFFF#16, 0x00E0#16⟩, by decide, rfl, by decide⟩
theorem Sys2Proof.Laws.EncodesInRow.ret : Statement (.ret) :=
  ⟨⟨"RET", 0xFFFF#16, 0x00EE#16⟩, by decide, rfl, by decide⟩
theorem Sys2Proof.Laws.EncodesInRow.jp (nnn : Addr) : Statement (.jp nnn) :=
  ⟨⟨"JP_NNN", 0xF000#16, 0x1000#16⟩, by decide, rfl, by simp [OpcodeRow.selects, encode, and_F000]⟩
theorem Sys2Proof.Laws.EncodesInRow.call (nnn : Addr) : Statement (.call nnn) :=
  ⟨⟨"CALL_NNN", 0xF000#16, 0x2000#16⟩, by decide, rfl, by simp [OpcodeRow.selects, encode, and_F000]⟩
theorem Sys2Proof.Laws.EncodesInRow.seImm (x : Nibble) (nn : Byte) : Statement (.seImm x nn) :=
  ⟨⟨"SE_Vx_NN", 0xF000#16, 0x3000#16⟩, by decide, rfl, by simp [OpcodeRow.selects, encode, and_F000]⟩
theorem Sys2Proof.Laws.EncodesInRow.sneImm (x : Nibble) (nn : Byte) : Statement (.sneImm x nn) :=
  ⟨⟨"SNE_Vx_NN", 0xF000#16, 0x4000#16⟩, by decide, rfl, by simp [OpcodeRow.selects, encode, and_F000]⟩
theorem Sys2Proof.Laws.EncodesInRow.seReg (x y : Nibble) : Statement (.seReg x y) :=
  ⟨⟨"SE_Vx_Vy", 0xF00F#16, 0x5000#16⟩, by decide, rfl, by simp [OpcodeRow.selects, encode, and_F00F]⟩
theorem Sys2Proof.Laws.EncodesInRow.ldImm (x : Nibble) (nn : Byte) : Statement (.ldImm x nn) :=
  ⟨⟨"LD_Vx_NN", 0xF000#16, 0x6000#16⟩, by decide, rfl, by simp [OpcodeRow.selects, encode, and_F000]⟩
theorem Sys2Proof.Laws.EncodesInRow.addImm (x : Nibble) (nn : Byte) : Statement (.addImm x nn) :=
  ⟨⟨"ADD_Vx_NN", 0xF000#16, 0x7000#16⟩, by decide, rfl, by simp [OpcodeRow.selects, encode, and_F000]⟩
theorem Sys2Proof.Laws.EncodesInRow.ldReg (x y : Nibble) : Statement (.ldReg x y) :=
  ⟨⟨"LD_Vx_Vy", 0xF00F#16, 0x8000#16⟩, by decide, rfl, by simp [OpcodeRow.selects, encode, and_F00F]⟩
theorem Sys2Proof.Laws.EncodesInRow.orReg (x y : Nibble) : Statement (.orReg x y) :=
  ⟨⟨"OR_Vx_Vy", 0xF00F#16, 0x8001#16⟩, by decide, rfl, by simp [OpcodeRow.selects, encode, and_F00F]⟩
theorem Sys2Proof.Laws.EncodesInRow.andReg (x y : Nibble) : Statement (.andReg x y) :=
  ⟨⟨"AND_Vx_Vy", 0xF00F#16, 0x8002#16⟩, by decide, rfl, by simp [OpcodeRow.selects, encode, and_F00F]⟩
theorem Sys2Proof.Laws.EncodesInRow.xorReg (x y : Nibble) : Statement (.xorReg x y) :=
  ⟨⟨"XOR_Vx_Vy", 0xF00F#16, 0x8003#16⟩, by decide, rfl, by simp [OpcodeRow.selects, encode, and_F00F]⟩
theorem Sys2Proof.Laws.EncodesInRow.addReg (x y : Nibble) : Statement (.addReg x y) :=
  ⟨⟨"ADD_Vx_Vy", 0xF00F#16, 0x8004#16⟩, by decide, rfl, by simp [OpcodeRow.selects, encode, and_F00F]⟩
theorem Sys2Proof.Laws.EncodesInRow.subReg (x y : Nibble) : Statement (.subReg x y) :=
  ⟨⟨"SUB_Vx_Vy", 0xF00F#16, 0x8005#16⟩, by decide, rfl, by simp [OpcodeRow.selects, encode, and_F00F]⟩
theorem Sys2Proof.Laws.EncodesInRow.shr (x y : Nibble) : Statement (.shr x y) :=
  ⟨⟨"SHR_Vx", 0xF00F#16, 0x8006#16⟩, by decide, rfl, by simp [OpcodeRow.selects, encode, and_F00F]⟩
theorem Sys2Proof.Laws.EncodesInRow.subnReg (x y : Nibble) : Statement (.subnReg x y) :=
  ⟨⟨"SUBN_Vx_Vy", 0xF00F#16, 0x8007#16⟩, by decide, rfl, by simp [OpcodeRow.selects, encode, and_F00F]⟩
theorem Sys2Proof.Laws.EncodesInRow.shl (x y : Nibble) : Statement (.shl x y) :=
  ⟨⟨"SHL_Vx", 0xF00F#16, 0x800E#16⟩, by decide, rfl, by simp [OpcodeRow.selects, encode, and_F00F]⟩
theorem Sys2Proof.Laws.EncodesInRow.sneReg (x y : Nibble) : Statement (.sneReg x y) :=
  ⟨⟨"SNE_Vx_Vy", 0xF00F#16, 0x9000#16⟩, by decide, rfl, by simp [OpcodeRow.selects, encode, and_F00F]⟩
theorem Sys2Proof.Laws.EncodesInRow.ldI (nnn : Addr) : Statement (.ldI nnn) :=
  ⟨⟨"LD_I_NNN", 0xF000#16, 0xA000#16⟩, by decide, rfl, by simp [OpcodeRow.selects, encode, and_F000]⟩
theorem Sys2Proof.Laws.EncodesInRow.jpV0 (nnn : Addr) : Statement (.jpV0 nnn) :=
  ⟨⟨"JP_V0_NNN", 0xF000#16, 0xB000#16⟩, by decide, rfl, by simp [OpcodeRow.selects, encode, and_F000]⟩
theorem Sys2Proof.Laws.EncodesInRow.rnd (x : Nibble) (nn : Byte) : Statement (.rnd x nn) :=
  ⟨⟨"RND_Vx_NN", 0xF000#16, 0xC000#16⟩, by decide, rfl, by simp [OpcodeRow.selects, encode, and_F000]⟩
theorem Sys2Proof.Laws.EncodesInRow.drw (x y n : Nibble) : Statement (.drw x y n) :=
  ⟨⟨"DRW_Vx_Vy_N", 0xF000#16, 0xD000#16⟩, by decide, rfl, by simp [OpcodeRow.selects, encode, and_F000]⟩
theorem Sys2Proof.Laws.EncodesInRow.skp (x : Nibble) : Statement (.skp x) :=
  ⟨⟨"SKP_Vx", 0xF0FF#16, 0xE09E#16⟩, by decide, rfl, by simp [OpcodeRow.selects, encode, and_F0FF]⟩
theorem Sys2Proof.Laws.EncodesInRow.sknp (x : Nibble) : Statement (.sknp x) :=
  ⟨⟨"SKNP_Vx", 0xF0FF#16, 0xE0A1#16⟩, by decide, rfl, by simp [OpcodeRow.selects, encode, and_F0FF]⟩
theorem Sys2Proof.Laws.EncodesInRow.ldVxDt (x : Nibble) : Statement (.ldVxDt x) :=
  ⟨⟨"LD_Vx_DT", 0xF0FF#16, 0xF007#16⟩, by decide, rfl, by simp [OpcodeRow.selects, encode, and_F0FF]⟩
theorem Sys2Proof.Laws.EncodesInRow.ldVxK (x : Nibble) : Statement (.ldVxK x) :=
  ⟨⟨"LD_Vx_K", 0xF0FF#16, 0xF00A#16⟩, by decide, rfl, by simp [OpcodeRow.selects, encode, and_F0FF]⟩
theorem Sys2Proof.Laws.EncodesInRow.ldDtVx (x : Nibble) : Statement (.ldDtVx x) :=
  ⟨⟨"LD_DT_Vx", 0xF0FF#16, 0xF015#16⟩, by decide, rfl, by simp [OpcodeRow.selects, encode, and_F0FF]⟩
theorem Sys2Proof.Laws.EncodesInRow.ldStVx (x : Nibble) : Statement (.ldStVx x) :=
  ⟨⟨"LD_ST_Vx", 0xF0FF#16, 0xF018#16⟩, by decide, rfl, by simp [OpcodeRow.selects, encode, and_F0FF]⟩
theorem Sys2Proof.Laws.EncodesInRow.addI (x : Nibble) : Statement (.addI x) :=
  ⟨⟨"ADD_I_Vx", 0xF0FF#16, 0xF01E#16⟩, by decide, rfl, by simp [OpcodeRow.selects, encode, and_F0FF]⟩
theorem Sys2Proof.Laws.EncodesInRow.ldF (x : Nibble) : Statement (.ldF x) :=
  ⟨⟨"LD_F_Vx", 0xF0FF#16, 0xF029#16⟩, by decide, rfl, by simp [OpcodeRow.selects, encode, and_F0FF]⟩
theorem Sys2Proof.Laws.EncodesInRow.ldB (x : Nibble) : Statement (.ldB x) :=
  ⟨⟨"LD_B_Vx", 0xF0FF#16, 0xF033#16⟩, by decide, rfl, by simp [OpcodeRow.selects, encode, and_F0FF]⟩
theorem Sys2Proof.Laws.EncodesInRow.storeRegs (x : Nibble) : Statement (.storeRegs x) :=
  ⟨⟨"LD__I__Vx", 0xF0FF#16, 0xF055#16⟩, by decide, rfl, by simp [OpcodeRow.selects, encode, and_F0FF]⟩
theorem Sys2Proof.Laws.EncodesInRow.loadRegs (x : Nibble) : Statement (.loadRegs x) :=
  ⟨⟨"LD_Vx__I", 0xF0FF#16, 0xF065#16⟩, by decide, rfl, by simp [OpcodeRow.selects, encode, and_F0FF]⟩
end

