-- ==== Sys2Proof/Laws/Step.lean ====
section
/-! SUPPORT. What a step can do, said once: the inversion of step over the decoder and exec. -/

namespace Sys2Proof.Machine

open Sys2Proof

@[simp] theorem endStep_next (s : State) : endStep (.next s) = .next (tick s) := rfl
@[simp] theorem endStep_fault (f : Fault) : endStep (.fault f) = .fault f := rfl
@[simp] theorem endStep_refused (q : Refusal) : endStep (.refused q) = .refused q := rfl
@[simp] theorem raiseDecode_unknown (op : Word) : raiseDecode (.unknownOpcode op) = .fault (.unknownOpcode op) := rfl

/-- The end of a step answers a next state exactly when the instruction did, and then that state's tick. -/
theorem endStep_eq_next {r : Result} {t : State} : endStep r = .next t ↔ ∃ u, r = .next u ∧ t = tick u := by
  cases r <;> simp [endStep, eq_comm]

/-- The end of a step passes an error on. -/
theorem endStep_eq_fault {r : Result} {f : Fault} : endStep r = .fault f ↔ r = .fault f := by
  cases r <;> simp [endStep]

/-- A step that answers a next state decoded an instruction, ran it to a next state, and ticked. -/
theorem step_next {s t : State} (h : step s = .next t) :
    ∃ i u, fetchDecode s = .ok i ∧ exec i s = .next u ∧ t = tick u := by
  unfold step at h
  split at h
  · rename_i i hi
    obtain ⟨u, hu, ht⟩ := endStep_eq_next.mp h
    exact ⟨i, u, hi, hu, ht⟩
  · rename_i e _
    cases e
    cases h

/-- A step that raises an error found no instruction, or the instruction it decoded raised it. -/
theorem step_fault {s : State} {f : Fault} (h : step s = .fault f) :
    (∃ op, fetchDecode s = .error (.unknownOpcode op) ∧ f = .unknownOpcode op) ∨
      ∃ i, fetchDecode s = .ok i ∧ exec i s = .fault f := by
  unfold step at h
  split at h
  · rename_i i hi
    exact .inr ⟨i, hi, endStep_eq_fault.mp h⟩
  · rename_i e he
    cases e
    rename_i op
    simp only [raiseDecode_unknown] at h
    cases h
    exact .inl ⟨op, he, rfl⟩

/-- What an instruction can answer (R78, R110, R198): a next state, but for CALL on a full stack and RET on an empty one. -/
theorem exec_outcome (i : Instr) (s : State) :
    (∃ u, exec i s = .next u) ∨
    (exec i s = .fault .stackOverflow ∧ s.sp.val = 16 ∧ ∃ nnn, i = .call nnn) ∨
    (exec i s = .fault .stackUnderflow ∧ s.sp.val = 0 ∧ i = .ret) := by
  cases i
  case ret =>
    cases h : popPc s with
    | none => exact .inr (.inr ⟨by simp only [exec, execRet, h]; rfl, popPc_none.mp h, rfl⟩)
    | some t => exact .inl ⟨_, by simp only [exec, execRet, h]; rfl⟩
  case call nnn =>
    cases h : pushPc s with
    | none => exact .inr (.inl ⟨by simp only [exec, execCall, h]; rfl, pushPc_none.mp h, nnn, rfl⟩)
    | some t => exact .inl ⟨_, by simp only [exec, execCall, h]; rfl⟩
  case ldVxK x =>
    cases h : lowestKey s with
    | none => exact .inl ⟨_, by simp only [exec, execLdVxK, h]; rfl⟩
    | some k => exact .inl ⟨_, by simp only [exec, execLdVxK, h]; rfl⟩
  all_goals exact .inl ⟨_, rfl⟩

/-! ### Launching (R224, R194) -/

/-- What a launch answers: the run from the loaded machine when the image fits, else a refusal and no run. -/
theorem boot_eq (font : Font) (image : List Byte) (events : List RunEvent) :
    boot font image events =
      if image.length < Config.loadLimit then
        .ok (session font (events.map runEvent) (storeImage image Config.progBase (resetWith font)))
      else .error .programTooLarge := by
  by_cases h : image.length < Config.loadLimit <;> simp [boot, load, h]

/-! ### The tick (R76) -/

/-- A timer's count after a tick. -/
theorem countDown_toNat (t : Byte) : (countDown t).toNat = t.toNat - 1 := by
  have := t.isLt
  unfold countDown
  split
  · rw [BitVec.toNat_ofNat]; omega
  · have h0 : t.toNat = 0 := by omega
    simp [h0]

theorem tick_eq (s : State) :
    tick s = { s with dt := countDown s.dt, st := countDown s.st, tone := (s.st == 1#8) } := rfl

/-- After a tick that fired TONE the sound timer is 0. -/
theorem tick_tone {s : State} (h : (tick s).tone = true) : (tick s).st = 0#8 := by
  have h1 : s.st = 1#8 := by simpa [tick_eq] using h
  simp [tick_eq, h1, countDown]

@[simp] theorem readV_tick (k : Nibble) (s : State) : readV k (tick s) = readV k s := rfl
@[simp] theorem memRead_tick (a : Nat) (s : State) : memRead a (tick s) = memRead a s := rfl
@[simp] theorem keyPressed_tick (k : Nibble) (s : State) : keyPressed k (tick s) = keyPressed k s := rfl
@[simp] theorem fetchDecode_tick (s : State) : fetchDecode (tick s) = fetchDecode s := rfl

end Sys2Proof.Machine
end

