-- ==== Sys2Proof/Machine/Asm.lean ====
section
/-! DEFINITION. The assembler notation of 30_encoding.md R58, R59 (labels only: no meaning depends on it). A program is a
list of lines; the assembler emits the two bytes of each instruction high byte first, and a label stands for the address
of the next line. There are no pseudo-instructions (R59). Reading the text of a line is left out (log 23). -/

namespace Sys2Proof.Machine

open Sys2Proof

/-- A hexadecimal digit. -/
def hexDigit (n : Nat) : String := (("0123456789ABCDEF".toList).getD (n % 16) '0').toString

/-- Hexadecimal with k digits. -/
def hexDigits : Nat → Nat → String
  | 0, _ => ""
  | k + 1, n => hexDigits k (n / 16) ++ hexDigit n

/-- V0 to VF. -/
def asmReg (x : Nibble) : String := "V" ++ hexDigit x.toNat
/-- A byte literal. -/
def asmByte (b : Byte) : String := "0x" ++ hexDigits 2 b.toNat
/-- An address literal. -/
def asmAddr (a : Addr) : String := "0x" ++ hexDigits 3 a.toNat

/-- The assembly text of an instruction (R54, R58). Literals are printed in hexadecimal, of the two forms R58 allows (DESIGN
CHOICE, log 25). -/
def asmText : Instr → String
  | .cls => "CLS"
  | .ret => "RET"
  | .jp nnn => "JP " ++ asmAddr nnn
  | .call nnn => "CALL " ++ asmAddr nnn
  | .seImm x nn => "SE " ++ asmReg x ++ "," ++ asmByte nn
  | .sneImm x nn => "SNE " ++ asmReg x ++ "," ++ asmByte nn
  | .seReg x y => "SE " ++ asmReg x ++ "," ++ asmReg y
  | .ldImm x nn => "LD " ++ asmReg x ++ "," ++ asmByte nn
  | .addImm x nn => "ADD " ++ asmReg x ++ "," ++ asmByte nn
  | .ldReg x y => "LD " ++ asmReg x ++ "," ++ asmReg y
  | .orReg x y => "OR " ++ asmReg x ++ "," ++ asmReg y
  | .andReg x y => "AND " ++ asmReg x ++ "," ++ asmReg y
  | .xorReg x y => "XOR " ++ asmReg x ++ "," ++ asmReg y
  | .addReg x y => "ADD " ++ asmReg x ++ "," ++ asmReg y
  | .subReg x y => "SUB " ++ asmReg x ++ "," ++ asmReg y
  | .shr x _ => "SHR " ++ asmReg x
  | .subnReg x y => "SUBN " ++ asmReg x ++ "," ++ asmReg y
  | .shl x _ => "SHL " ++ asmReg x
  | .sneReg x y => "SNE " ++ asmReg x ++ "," ++ asmReg y
  | .ldI nnn => "LD I," ++ asmAddr nnn
  | .jpV0 nnn => "JP V0," ++ asmAddr nnn
  | .rnd x nn => "RND " ++ asmReg x ++ "," ++ asmByte nn
  | .drw x y n => "DRW " ++ asmReg x ++ "," ++ asmReg y ++ ",0x" ++ hexDigit n.toNat
  | .skp x => "SKP " ++ asmReg x
  | .sknp x => "SKNP " ++ asmReg x
  | .ldVxDt x => "LD " ++ asmReg x ++ ",DT"
  | .ldVxK x => "LD " ++ asmReg x ++ ",K"
  | .ldDtVx x => "LD DT," ++ asmReg x
  | .ldStVx x => "LD ST," ++ asmReg x
  | .addI x => "ADD I," ++ asmReg x
  | .ldF x => "LD F," ++ asmReg x
  | .ldB x => "LD B," ++ asmReg x
  | .storeRegs x => "LD [I]," ++ asmReg x
  | .loadRegs x => "LD " ++ asmReg x ++ ",[I]"

/-- A line of a program (R58). The last four name a label where an NNN literal stands. -/
inductive AsmLine where
  | instr (i : Instr)
  | db (b : Byte)
  | label (name : String)
  | jpTo (name : String)
  | callTo (name : String)
  | ldITo (name : String)
  | jpV0To (name : String)
  deriving DecidableEq, Repr

/-- How many bytes a line emits. -/
def asmSize : AsmLine → Nat
  | .label _ => 0
  | .db _ => 1
  | _ => 2

/-- The address of a label in the lines that start at an address, if it is defined: the address of the next instruction
(R58). DESIGN CHOICE (log 25): R58 does not say what a label defined twice stands for, nor one at or past 0x1000; the first
definition is taken, and the address is reduced modulo 4096, as an NNN literal holds 12 bits. A label
before a DB byte or at the end is the address of the next byte. -/
def labelAddr (name : String) : List AsmLine → Nat → Option Addr
  | [], _ => none
  | .label n :: ls, a => if n = name then some (BitVec.ofNat 12 a) else labelAddr name ls a
  | l :: ls, a => labelAddr name ls (a + asmSize l)

/-- The bytes of one line, labels resolved by `find`; none where a label is not defined (DESIGN CHOICE, log 25). -/
def asmBytes (find : String → Option Addr) : AsmLine → Option (List Byte)
  | .instr i => some (encodeBytes i)
  | .db b => some [b]
  | .label _ => some []
  | .jpTo n => (find n).map (fun a => encodeBytes (.jp a))
  | .callTo n => (find n).map (fun a => encodeBytes (.call a))
  | .ldITo n => (find n).map (fun a => encodeBytes (.ldI a))
  | .jpV0To n => (find n).map (fun a => encodeBytes (.jpV0 a))

/-- The image of a program that starts at 0x200 (R58); none when it names a label that it does not define (DESIGN CHOICE,
log 25). -/
def assemble (p : List AsmLine) : Option (List Byte) :=
  (p.mapM (asmBytes (fun n => labelAddr n p Config.progBase))).map List.flatten

end Sys2Proof.Machine
end

