-- ==== Sys2Proof/Tests/Slice0.lean ====
section
/-! SUPPORT. Tests. Expected results come from the worked vectors T<n> and examples E<n> of 95_test_vectors.md, or from a
rule's own corner cases by hand; each test names its source. Every test is one step on a small state. -/

namespace Sys2Proof.Tests

open Sys2Proof Sys2Proof.Machine

/-! ### Well-formedness: one ill-formed operand per check (R53) -/

theorem test_wf_refuses_register_16 : (Operand.reg 16).wf = false := by decide
theorem test_wf_refuses_nibble_16 : (Operand.nibble 16).wf = false := by decide
theorem test_wf_refuses_byte_256 : (Operand.byte 256).wf = false := by decide
theorem test_wf_refuses_address_4096 : (Operand.addr 4096).wf = false := by decide
theorem test_wf_accepts_drw : (Instr.drw 15 0 15).wf = true := by decide

/-! ### Decoding: every constructor, on a word written out from its pattern in R54 (OP X Y N, four bits each) -/

/-- The word of four nibbles, most significant first (R51). -/
def nibbles (a b c d : Nat) : Word := BitVec.ofNat 16 (((a * 16 + b) * 16 + c) * 16 + d)

theorem test_decode_cls : decode (nibbles 0x0 0x0 0xE 0x0) = .ok .cls := by decide
theorem test_decode_ret : decode (nibbles 0x0 0x0 0xE 0xE) = .ok .ret := by decide
theorem test_decode_jp : decode (nibbles 0x1 0x2 0x3 0x4) = .ok (.jp 0x234) := by decide
theorem test_decode_call : decode (nibbles 0x2 0xA 0xB 0xC) = .ok (.call 0xABC) := by decide
theorem test_decode_seImm : decode (nibbles 0x3 0xA 0x0 0x5) = .ok (.seImm 0xA 0x05) := by decide
theorem test_decode_sneImm : decode (nibbles 0x4 0xA 0x5 0x0) = .ok (.sneImm 0xA 0x50) := by decide
theorem test_decode_seReg : decode (nibbles 0x5 0x1 0x2 0x0) = .ok (.seReg 1 2) := by decide
theorem test_decode_ldImm : decode (nibbles 0x6 0xA 0x0 0x5) = .ok (.ldImm 0xA 0x05) := by decide
theorem test_decode_addImm : decode (nibbles 0x7 0xF 0x0 0x1) = .ok (.addImm 0xF 0x01) := by decide
theorem test_decode_ldReg : decode (nibbles 0x8 0x1 0x2 0x0) = .ok (.ldReg 1 2) := by decide
theorem test_decode_orReg : decode (nibbles 0x8 0x1 0x2 0x1) = .ok (.orReg 1 2) := by decide
theorem test_decode_andReg : decode (nibbles 0x8 0x1 0x2 0x2) = .ok (.andReg 1 2) := by decide
theorem test_decode_xorReg : decode (nibbles 0x8 0x1 0x2 0x3) = .ok (.xorReg 1 2) := by decide
theorem test_decode_addReg : decode (nibbles 0x8 0xA 0xB 0x4) = .ok (.addReg 0xA 0xB) := by decide
theorem test_decode_subReg : decode (nibbles 0x8 0x1 0x2 0x5) = .ok (.subReg 1 2) := by decide
theorem test_decode_shr : decode (nibbles 0x8 0x1 0xA 0x6) = .ok (.shr 1 0xA) := by decide
theorem test_decode_subnReg : decode (nibbles 0x8 0x1 0x2 0x7) = .ok (.subnReg 1 2) := by decide
theorem test_decode_shl : decode (nibbles 0x8 0xF 0xF 0xE) = .ok (.shl 0xF 0xF) := by decide
theorem test_decode_sneReg : decode (nibbles 0x9 0x1 0x2 0x0) = .ok (.sneReg 1 2) := by decide
theorem test_decode_ldI : decode (nibbles 0xA 0x2 0xF 0x0) = .ok (.ldI 0x2F0) := by decide
theorem test_decode_jpV0 : decode (nibbles 0xB 0xF 0xF 0xF) = .ok (.jpV0 0xFFF) := by decide
theorem test_decode_rnd : decode (nibbles 0xC 0x3 0x0 0xF) = .ok (.rnd 3 0x0F) := by decide
theorem test_decode_drw : decode (nibbles 0xD 0x3 0xA 0x5) = .ok (.drw 3 0xA 5) := by decide
theorem test_decode_skp : decode (nibbles 0xE 0x1 0x9 0xE) = .ok (.skp 1) := by decide
theorem test_decode_sknp : decode (nibbles 0xE 0x1 0xA 0x1) = .ok (.sknp 1) := by decide
theorem test_decode_ldVxDt : decode (nibbles 0xF 0x3 0x0 0x7) = .ok (.ldVxDt 3) := by decide
theorem test_decode_ldVxK : decode (nibbles 0xF 0x5 0x0 0xA) = .ok (.ldVxK 5) := by decide
theorem test_decode_ldDtVx : decode (nibbles 0xF 0x3 0x1 0x5) = .ok (.ldDtVx 3) := by decide
theorem test_decode_ldStVx : decode (nibbles 0xF 0x3 0x1 0x8) = .ok (.ldStVx 3) := by decide
theorem test_decode_addI : decode (nibbles 0xF 0x1 0x1 0xE) = .ok (.addI 1) := by decide
theorem test_decode_ldF : decode (nibbles 0xF 0xA 0x2 0x9) = .ok (.ldF 0xA) := by decide
theorem test_decode_ldB : decode (nibbles 0xF 0xA 0x3 0x3) = .ok (.ldB 0xA) := by decide
theorem test_decode_storeRegs : decode (nibbles 0xF 0x2 0x5 0x5) = .ok (.storeRegs 2) := by decide
theorem test_decode_loadRegs : decode (nibbles 0xF 0x1 0x6 0x5) = .ok (.loadRegs 1) := by decide

/-- 0x01E0 is undefined: family 0 compares all 16 bits (T101, D3). -/
theorem test_decode_refuses_01E0 : decode (nibbles 0x0 0x1 0xE 0x0) = .error (.unknownOpcode 0x01E0) := by decide
/-- 0x5121 is undefined (T102). -/
theorem test_decode_refuses_5121 : decode (nibbles 0x5 0x1 0x2 0x1) = .error (.unknownOpcode 0x5121) := by decide
/-- 0x8128 is undefined (T103). -/
theorem test_decode_refuses_8128 : decode (nibbles 0x8 0x1 0x2 0x8) = .error (.unknownOpcode 0x8128) := by decide
/-- 0x9121 is undefined (T104). -/
theorem test_decode_refuses_9121 : decode (nibbles 0x9 0x1 0x2 0x1) = .error (.unknownOpcode 0x9121) := by decide
/-- 0xE19F is undefined (T105). -/
theorem test_decode_refuses_E19F : decode (nibbles 0xE 0x1 0x9 0xF) = .error (.unknownOpcode 0xE19F) := by decide
/-- 0xF130 is undefined (T106). -/
theorem test_decode_refuses_F130 : decode (nibbles 0xF 0x1 0x3 0x0) = .error (.unknownOpcode 0xF130) := by decide
/-- The table's word for DRW V3,VA,5 (T1). -/
theorem test_table_word_drw : decodeTableWord 16 0xD3A5 = some (.drw 3 0xA 5) := by decide
/-- 34 rows in R54. -/
theorem test_opcode_table_34_rows : opcodeTable.length = 34 := by decide

/-! ### One step -/

/-- The step from s on the given opcode answers a next state with property p. -/
def after (op : Nat) (s : State) (p : State → Bool) : Bool :=
  match step (s.withFetchWord 16 op) with
  | .next t => p t
  | _ => false

/-- The step from s on the given opcode raises the error f. -/
def faults (op : Nat) (s : State) (f : Fault) : Bool :=
  match step (s.withFetchWord 16 op) with
  | .fault g => g == f
  | _ => false

/-- The state after reset with V1 and V2 set. -/
def regs12 (a b : Byte) : State := State.reset |> writeV 1 a |> writeV 2 b

/-- T6, E8. -/
theorem test_ldImm : after 0x6A05 State.reset (fun t => readV 0xA t == 5 && t.pc == 0x202) = true := by decide
/-- T8: wraps, VF stays. -/
theorem test_addImm_wraps :
    after 0x7005 (State.reset |> writeV 0 0xFE |> writeV vf 0x55) (fun t => readV 0 t == 3 && readV vf t == 0x55) = true := by
  decide
/-- T9: VF as an ordinary register. -/
theorem test_addImm_vf : after 0x7F01 (State.reset |> writeV vf 0xFF) (fun t => readV vf t == 0) = true := by decide
/-- T10. -/
theorem test_ldReg : after 0x8120 (regs12 0 0x7C) (fun t => readV 1 t == 0x7C) = true := by decide
/-- T11: VF stays. -/
theorem test_orReg :
    after 0x8121 (regs12 0xF0 0x0F |> writeV vf 0x55) (fun t => readV 1 t == 0xFF && readV vf t == 0x55) = true := by decide
/-- T12: VF stays. -/
theorem test_andReg :
    after 0x8122 (regs12 0xF3 0x3C |> writeV vf 0x55) (fun t => readV 1 t == 0x30 && readV vf t == 0x55) = true := by decide
/-- T13: VF stays. -/
theorem test_xorReg :
    after 0x8123 (regs12 0xFF 0x0F |> writeV vf 0x55) (fun t => readV 1 t == 0xF0 && readV vf t == 0x55) = true := by decide
/-- T14, E2: 200 + 100 = 44 with carry. -/
theorem test_addReg_carry : after 0x8124 (regs12 0xC8 0x64) (fun t => readV 1 t == 0x2C && readV vf t == 1) = true := by
  decide
/-- T15: the sum 255 gives no carry, and VF is cleared. -/
theorem test_addReg_255 :
    after 0x8124 (regs12 0xF0 0x0F |> writeV vf 1) (fun t => readV 1 t == 0xFF && readV vf t == 0) = true := by decide
/-- T20: equal operands give VF 0 (strict >). -/
theorem test_subReg_equal :
    after 0x8125 (regs12 7 7 |> writeV vf 1) (fun t => readV 1 t == 0 && readV vf t == 0) = true := by decide
/-- T22: X = 15, the flag replaces the result. -/
theorem test_subReg_vf_destination :
    after 0x8F15 (State.reset |> writeV 1 3 |> writeV vf 9) (fun t => readV vf t == 1 && readV 1 t == 3) = true := by decide
/-- T24: the Y field is ignored. -/
theorem test_shr_ignores_y :
    after 0x81A6 (State.reset |> writeV 1 5 |> writeV 0xA 0xFF)
      (fun t => readV 1 t == 2 && readV vf t == 1 && readV 0xA t == 0xFF) = true := by decide
/-- T25: X = 15. -/
theorem test_shr_vf : after 0x8F06 (State.reset |> writeV vf 2) (fun t => readV vf t == 0) = true := by decide
/-- T26. -/
theorem test_subnReg : after 0x8127 (regs12 3 0xA) (fun t => readV 1 t == 7 && readV vf t == 1) = true := by decide
/-- T27: 5 - 10 borrows. -/
theorem test_subnReg_borrow :
    after 0x8127 (regs12 0xA 5 |> writeV vf 1) (fun t => readV 1 t == 0xFB && readV vf t == 0) = true := by decide
/-- T28. -/
theorem test_shl : after 0x810E (regs12 0x81 0) (fun t => readV 1 t == 2 && readV vf t == 1) = true := by decide
/-- T29: X = 15. -/
theorem test_shl_vf : after 0x8FFE (State.reset |> writeV vf 0x80) (fun t => readV vf t == 1) = true := by decide

/-- A state inside one call made from 0xFFE. -/
def inCall : State := { State.reset with sp := 1, stack := State.reset.stack.set 0 0xFFE, pc := 0x300 }

/-- T33: the return address wraps. -/
theorem test_ret_wraps : after 0x00EE inCall (fun t => t.sp == 0 && t.pc == 0x000) = true := by decide
/-- T108: empty stack. -/
theorem test_ret_underflow : faults 0x00EE State.reset .stackUnderflow = true := by decide
/-- T30: the CALL pushes its own address. -/
theorem test_call :
    after 0x2300 (State.reset |> writePc 0x204) (fun t => t.sp == 1 && t.stack[0] == 0x204 && t.pc == 0x300) = true := by
  decide
/-- T107: the 17th call. -/
theorem test_call_overflow : faults 0x2300 { State.reset with sp := 16 } .stackOverflow = true := by decide
/-- T34. -/
theorem test_jp : after 0x1200 (State.reset |> writePc 0x202) (fun t => t.pc == 0x200) = true := by decide
/-- T111: a taken skip at the top of memory wraps. -/
theorem test_seImm_wraps :
    after 0x3A05 (State.reset |> writeV 0xA 5 |> writePc 0xFFE) (fun t => t.pc == 0x002) = true := by decide
/-- T37: not taken. -/
theorem test_seImm_not_taken : after 0x3A05 (State.reset |> writeV 0xA 6) (fun t => t.pc == 0x202) = true := by decide
/-- T38. -/
theorem test_sneImm_taken : after 0x4A05 (State.reset |> writeV 0xA 6) (fun t => t.pc == 0x204) = true := by decide
/-- T39. -/
theorem test_sneImm_not_taken : after 0x4A05 (State.reset |> writeV 0xA 5) (fun t => t.pc == 0x202) = true := by decide
/-- T40. -/
theorem test_seReg_taken : after 0x5120 (regs12 9 9) (fun t => t.pc == 0x204) = true := by decide
/-- T41. -/
theorem test_seReg_not_taken : after 0x5120 (regs12 9 8) (fun t => t.pc == 0x202) = true := by decide
/-- T42. -/
theorem test_sneReg_taken : after 0x9120 (regs12 1 2) (fun t => t.pc == 0x204) = true := by decide
/-- T44: V0 is the offset although the X nibble is F, and the sum wraps. -/
theorem test_jpV0_wraps : after 0xBFFF (State.reset |> writeV 0 2 |> writeV vf 0x33) (fun t => t.pc == 0x001) = true := by
  decide

/-- T47. -/
theorem test_ldI : after 0xA2F0 State.reset (fun t => t.i == 0x2F0) = true := by decide
/-- T50: the sum is exactly 0xFFF, VF is cleared. -/
theorem test_addI_top :
    after 0xF11E (State.reset |> writeI 0xF00 |> writeV 1 0xFF |> writeV vf 1) (fun t => t.i == 0xFFF && readV vf t == 0)
      = true := by decide
/-- T51: X = 15, the old VF is added, then VF is the flag. -/
theorem test_addI_vf :
    after 0xFF1E (State.reset |> writeI 0xFFE |> writeV vf 3) (fun t => t.i == 0x001 && readV vf t == 1) = true := by decide
/-- T53: the whole byte is multiplied. -/
theorem test_ldF_not_masked : after 0xFA29 (State.reset |> writeV 0xA 0xFF) (fun t => t.i == 0x4FB) = true := by decide
/-- T55: the third digit wraps to address 0. -/
theorem test_ldB_wraps :
    after 0xF333 (State.reset |> writeI 0xFFE |> writeV 3 0x7B)
      (fun t => memRead 0xFFE t == 1 && memRead 0xFFF t == 2 && memRead 0 t == 3 && t.i == 0xFFE) = true := by decide
/-- E8: 0, 0, 5 at 0x19 to 0x1B, inside the font, and 0x1C untouched (C13). -/
theorem test_ldB_font :
    after 0xFA33 (State.reset |> writeI 0x019 |> writeV 0xA 5)
      (fun t => memRead 0x19 t == 0 && memRead 0x1A t == 0 && memRead 0x1B t == 5 && memRead 0x1C t == 0x10) = true := by
  decide
/-- T56: X = 0 stores one byte. -/
theorem test_storeRegs_one :
    after 0xF055 (State.reset |> writeI 0x300 |> writeV 0 0xAB |> writeV 1 0xCD)
      (fun t => memRead 0x300 t == 0xAB && memRead 0x301 t == 0 && t.i == 0x301) = true := by decide
/-- T57: sixteen bytes across the top of memory. -/
theorem test_storeRegs_wraps :
    after 0xFF55 (State.reset |> writeI 0xFF8 |> writeV 7 0xE7 |> writeV 8 0xE8 |> writeV vf 0xEF)
      (fun t => memRead 0xFFF t == 0xE7 && memRead 0x000 t == 0xE8 && memRead 0x007 t == 0xEF && t.i == 0x008) = true := by
  decide
/-- T58: registers above X are unchanged. -/
theorem test_loadRegs :
    after 0xF165 (State.reset |> writeI 0x300 |> memWrite 0x300 0xAA |> memWrite 0x301 0xBB |> memWrite 0x302 0xCC
        |> writeV 2 0x77)
      (fun t => readV 0 t == 0xAA && readV 1 t == 0xBB && readV 2 t == 0x77 && t.i == 0x302) = true := by decide
/-- T59: VF is loaded from memory like any register, here from the font. -/
theorem test_loadRegs_font :
    after 0xFF65 State.reset (fun t => readV 0 t == 0xF0 && readV 5 t == 0x20 && readV vf t == 0xF0 && t.i == 0x010)
      = true := by decide

/-- T80: reads 9, then the tick. -/
theorem test_ldVxDt : after 0xF307 (State.reset |> writeDt 9) (fun t => readV 3 t == 9 && t.dt == 8) = true := by decide
/-- T81: the tick follows in the same step. -/
theorem test_ldDtVx : after 0xF315 (State.reset |> writeV 3 5) (fun t => t.dt == 4) = true := by decide
/-- T84: written 1 and ticked to 0 in the same step, TONE. -/
theorem test_ldStVx_tone : after 0xF318 (State.reset |> writeV 3 1) (fun t => t.st == 0 && t.tone) = true := by decide
/-- T85: writing 0 cancels the pending tone. -/
theorem test_ldStVx_cancel : after 0xF318 (State.reset |> writeSt 1) (fun t => t.st == 0 && !t.tone) = true := by decide
/-- T90: key index 0x1A is key A. -/
theorem test_skp_low_bits :
    after 0xE19E (State.reset |> writeV 1 0x1A |> keyDown 0xA) (fun t => t.pc == 0x204) = true := by decide
/-- T89: not taken. -/
theorem test_skp_not_taken :
    after 0xE19E (State.reset |> writeV 1 4 |> keyDown 5) (fun t => t.pc == 0x202) = true := by decide
/-- T91. -/
theorem test_sknp_not_taken :
    after 0xE1A1 (State.reset |> writeV 1 4 |> keyDown 4) (fun t => t.pc == 0x202) = true := by decide
/-- T92. -/
theorem test_sknp_taken : after 0xE1A1 (State.reset |> writeV 1 4) (fun t => t.pc == 0x204) = true := by decide
/-- T93, T96: blocked, PC and Vx held, the timers run and TONE fires. -/
theorem test_ldVxK_blocked :
    after 0xF50A (State.reset |> writeV 5 0xEE |> writeDt 3 |> writeSt 1)
      (fun t => t.outcome == .blocked && t.pc == 0x200 && readV 5 t == 0xEE && t.dt == 2 && t.tone) = true := by decide
/-- T95: several keys, the lowest index. -/
theorem test_ldVxK_lowest :
    after 0xF50A (State.reset |> keyDown 9 |> keyDown 3)
      (fun t => t.outcome == .completed && readV 5 t == 3 && t.pc == 0x202) = true := by decide
/-- T97, T98: the instruction completes and advances; the random byte is free, so no test expects a value of V3. -/
theorem test_rnd_completes : after 0xC300 (State.reset |> writeV 3 0x44) (fun t => t.pc == 0x202) = true := by decide

/-- T65: VF unchanged, DRAW_FLAG set. -/
theorem test_cls :
    after 0x00E0 ({ State.reset with fb := FrameBuffer.flip State.reset.fb 63 31, drawFlag := false } |> writeV vf 1)
      (fun t => !FrameBuffer.get t.fb 63 31 && t.drawFlag && readV vf t == 1) = true := by decide
/-- T73: rows from 0xFFF and 0x000; bit 0 is column 7. -/
theorem test_drw_wraps_memory :
    after 0xD122 (State.reset |> writeI 0xFFF |> memWrite 0xFFF 1)
      (fun t => FrameBuffer.get t.fb 7 0 && FrameBuffer.get t.fb 0 1 && !FrameBuffer.get t.fb 0 0
        && !FrameBuffer.get t.fb 4 1 && readV vf t == 0) = true := by decide
/-- T62, T68, T69: a collision; the origin and the columns wrap. -/
theorem test_drw_collision_wraps :
    after 0xD121 ({ State.reset with fb := FrameBuffer.flip State.reset.fb 0 1 } |> writeI 0x300 |> memWrite 0x300 0xFF
        |> writeV 1 0x7C |> writeV 2 0x21)
      (fun t => readV vf t == 1 && !FrameBuffer.get t.fb 0 1 && FrameBuffer.get t.fb 60 1 && FrameBuffer.get t.fb 3 1
        && !FrameBuffer.get t.fb 4 1) = true := by decide

/-! ### The frame of a step, the host -/

/-- T100: zeroed memory raises UnknownOpcode(0x0000). -/
theorem test_unknown_opcode : faults 0x0000 State.reset (.unknownOpcode 0x0000) = true := by decide
/-- T113: the fetch at 0xFFF takes its low byte from 0x000. -/
theorem test_fetch_wraps : fetch (State.reset |> memWrite 0xFFF 0x6A |> writePc 0xFFF) = 0x6AF0 := by decide
/-- T87: a jump step ticks too. -/
theorem test_tick : after 0x1200 (State.reset |> writeDt 255 |> writeSt 255) (fun t => t.dt == 254 && t.st == 254) = true := by
  decide
/-- R25: the default FONT gives State.reset, and another FONT is what reset copies. -/
theorem test_reset_default_font : resetWith defaultFont = State.reset := by decide
theorem test_reset_other_font :
    (memRead 0x000 (resetWith (Vector.replicate 80 0x3C)) == 0x3C && memRead 0x04F (resetWith (Vector.replicate 80 0x3C)) == 0x3C
      && memRead 0x050 (resetWith (Vector.replicate 80 0x3C)) == 0) = true := by decide
/-- R224: the first step after a launch runs the first two bytes of the image. -/
theorem test_boot_runs :
    (match boot defaultFont [0x6A, 0x05] [.step] with
      | .ok r => r.1 == [.stepped (.completed false)] && readV 0xA r.2 == 5 && r.2.pc == 0x202
      | .error _ => false) = true := by
  rw [boot_eq, test_reset_default_font]; decide
/-- R194, U13: a launch with an image of 3584 bytes is refused, whatever the events. -/
theorem test_boot_refuses : boot defaultFont (List.replicate 3584 0#8) [.step] = .error .programTooLarge := by
  rw [boot_eq, List.length_replicate]; rfl
/-- T121: the tail of an older image stays. -/
theorem test_load_keeps_tail :
    ((load [0xAA, 0xBB] (load [0x11, 0x22, 0x33, 0x44] State.reset).2).2.mem ==
      [(0x200, 0xAA), (0x201, 0xBB), (0x202, 0x33), (0x203, 0x44)]) = true := by decide
/-- T115: reset clears a held key. -/
theorem test_reset_clears_keys : keyPressed 7 (hostReset defaultFont (keyDown 7 State.reset)) = false := by decide
/-- P5: an error leaves the state as it was, and the host sees the error. -/
theorem test_error_reported :
    (hostStep { State.reset with dt := 5 }).1 = .error (.unknownOpcode 0) ∧
      (hostStep { State.reset with dt := 5 }).2.dt = 5 := by decide
/-- P1: the listing assembles to the image of the spec. -/
theorem test_assemble_p1 :
    assemble [.instr (.ldImm 0 5), .instr (.ldImm 1 0), .label "loop", .instr (.addReg 1 0), .instr (.addImm 0 0xFF),
      .instr (.seImm 0 0), .jpTo "loop", .label "end", .jpTo "end"] =
    some [0x60, 0x05, 0x61, 0x00, 0x81, 0x04, 0x70, 0xFF, 0x30, 0x00, 0x12, 0x04, 0x12, 0x0C] := by decide
/-- T1: the assembly text of D3A5. -/
theorem test_asm_text : asmText (.drw 3 0xA 5) = "DRW V3,VA,0x5" := by decide

/-! ### Witnesses: a state and operands that meet the hypotheses of each obligation that has some, and each of its clauses
at a boundary. The name after `witness_` is the obligation's. -/

/-- The state after reset with an opcode placed at PC. -/
def placed (op : Nat) : State := State.reset.withFetchWord 16 op
/-- With k live stack entries, all 0x300, and an opcode placed at PC. -/
def stacked (k : Fin 17) (op : Nat) : State := { placed op with sp := k, stack := Vector.replicate 16 0x300#12 }
/-- exec answers a next state with property p. -/
def runs (i : Instr) (s : State) (p : State → Bool) : Bool :=
  match exec i s with
  | .next t => p t
  | _ => false

theorem witness_DecodeEncodeRoundTrip : (Instr.ldImm 0xF 0xFF).wf = true ∧ (Instr.drw 15 15 15).wf = true := by decide
theorem witness_EncodeInvertsDecode : decode 0xD3A5 = .ok (.drw 3 0xA 5) := by decide
theorem witness_DecodeAgreesWithOpcodeMap :
    decode 0x1FFF = .ok (.jp 0xFFF) ∧ ∃ r ∈ opcodeTable, r.selects 0x1FFF = true := by decide
theorem witness_OpcodeRowsDisjoint : ∃ r ∈ opcodeTable, ∃ q ∈ opcodeTable, r.selects 0x00E0 = true ∧ q.selects 0x00E0 = true := by
  decide
theorem witness_UndefinedOpcodesExactly : decode 0x8128 = .error (.unknownOpcode 0x8128) := by decide
theorem witness_StepRunsDecodedInstruction_next :
    decode (fetch (placed 0x00E0)) = .ok .cls ∧ runs .cls (placed 0x00E0) (fun _ => true) = true := by decide
theorem witness_StepRunsDecodedInstruction_fault :
    decode (fetch (stacked 0 0x00EE)) = .ok .ret ∧ exec .ret (stacked 0 0x00EE) = .fault .stackUnderflow := ⟨by decide, rfl⟩
theorem witness_StepRunsDecodedInstruction_error : decode (fetch State.reset) = .error (.unknownOpcode 0) := by decide
theorem witness_UnknownOpcodeReported : ∀ i, decode (fetch State.reset) ≠ .ok i := by
  rw [witness_StepRunsDecodedInstruction_error]; exact fun _ h => by cases h
theorem witness_CallOnFullStackOverflows :
    (stacked 16 0x2300).sp.val = 16 ∧ decode (fetch (stacked 16 0x2300)) = .ok (.call 0x300) := by decide
theorem witness_ReturnOnEmptyStackUnderflows :
    (stacked 0 0x00EE).sp.val = 0 ∧ decode (fetch (stacked 0 0x00EE)) = .ok .ret := by decide
theorem witness_ErrorStepChangesNothing : (hostStep State.reset).1 = .error (.unknownOpcode 0) := by decide
/-- DT at 1, ST at 0: the boundary of both countdown clauses. -/
theorem witness_TickEndsEveryStep :
    after 0x1200 { State.reset with dt := 1 } (fun t => t.dt == 0 && t.st == 0 && !t.tone) = true := by decide
/-- ST at 1: the step that reports TONE. -/
theorem witness_TickEndsEveryStep_tone :
    after 0x1200 { State.reset with st := 1 } (fun t => t.st == 0 && t.tone) = true := by decide
theorem witness_InvariantKeptByStep : Inv (placed 0x1200) ∧ ∃ t, step (placed 0x1200) = .next t :=
  ⟨⟨by decide, by decide, fun h => absurd h (by decide)⟩, _, rfl⟩
theorem witness_SessionKeepsMemoryCanonical : Memory.wf (placed 0xF055).mem := by decide
theorem witness_LoadWritesImage :
    (List.replicate 3583 0#8).length < 3584 ∧ 3584 ≤ (List.replicate 3584 0#8).length ∧
    ((0xFFF#12).toNat < 0x200 ∨ 0x200 + (List.replicate 3583 0#8).length ≤ (0xFFF#12).toNat) := by
  simp only [List.length_replicate]; decide
/-- The carry clauses meet between the sums 255 and 256. -/
theorem witness_AddRegistersResult :
    runs (.addReg 1 2) (regs12 0xFF 0x00) (fun t => readV vf t == 0 && readV 1 t == 0xFF) = true ∧
    runs (.addReg 1 2) (regs12 0xFF 0x01) (fun t => readV vf t == 1 && readV 1 t == 0x00) = true := by decide
/-- The flag clauses meet between a difference of 0 and of 1. -/
theorem witness_SubtractResult :
    runs (.subReg 1 2) (regs12 7 7) (fun t => readV vf t == 0) = true ∧
    runs (.subReg 1 2) (regs12 8 7) (fun t => readV vf t == 1) = true ∧
    runs (.subnReg 1 2) (regs12 7 7) (fun t => readV vf t == 0) = true ∧
    runs (.subnReg 1 2) (regs12 7 8) (fun t => readV vf t == 1) = true := by decide
theorem witness_ShiftResult :
    runs (.shr 1 2) (regs12 0xFE 0) (fun t => readV vf t == 0 && readV 1 t == 0x7F) = true ∧
    runs (.shr 1 2) (regs12 0xFF 0) (fun t => readV vf t == 1 && readV 1 t == 0x7F) = true ∧
    runs (.shl 1 2) (regs12 0x7F 0) (fun t => readV vf t == 0 && readV 1 t == 0xFE) = true ∧
    runs (.shl 1 2) (regs12 0x80 0) (fun t => readV vf t == 1 && readV 1 t == 0x00) = true := by decide
theorem witness_CallPushesItsOwnAddress :
    (stacked 15 0).sp.val < 16 ∧ (stacked 16 0).sp.val = 16 ∧
    runs (.call 0xABC) (stacked 15 0) (fun t => t.sp.val == 16 && t.stack[15] == 0x200 && t.stack[14] == 0x300) = true := by
  decide
theorem witness_ReturnPopsAndAdvances :
    (0 < (stacked 1 0).sp.val ∧ (stacked 1 0).sp.val - 1 < 16) ∧ 0 < (stacked 16 0).sp.val ∧ (stacked 16 0).sp.val - 1 < 16 := by
  decide
theorem witness_CallThenReturnContinues :
    (stacked 15 0).sp.val < 16 ∧ ∃ t, exec (.call 0x300) (stacked 15 0) = .next t ∧
      (writeV 3 1 t).stack = t.stack ∧ (writeV 3 1 t).sp = t.sp := ⟨by decide, _, rfl, rfl, rfl⟩
/-- The flag clauses meet between the sums 0xFFF and 0x1000. -/
theorem witness_AddIndexResult :
    runs (.addI 1) (State.reset |> writeI 0xFFF) (fun t => readV vf t == 0 && t.i == 0xFFF) = true ∧
    runs (.addI 1) (State.reset |> writeI 0xFFF |> writeV 1 1) (fun t => readV vf t == 1 && t.i == 0) = true := by decide
/-- X = 0: V0 is stored, and address I + 1 is outside. -/
theorem witness_StoreRegistersResult :
    (0#4 : Nibble).toNat ≤ (0#4 : Nibble).toNat ∧
    ∀ k : Nibble, k.toNat ≤ (0#4 : Nibble).toNat → (0x301 : Addr) ≠ memAddr (indexed k.toNat (State.reset |> writeI 0x300)) := by
  decide
/-- X = 14: V14 is loaded, V15 is above X. -/
theorem witness_LoadRegistersResult : (14#4 : Nibble).toNat ≤ (14#4 : Nibble).toNat ∧ (14#4 : Nibble).toNat < (15#4 : Nibble).toNat := by
  decide
theorem witness_SkipOnKey :
    (5#4 : Nibble).toNat = (readV 1 (regs12 0xF5 0)).toNat % 16 ∧ (0#4 : Nibble).toNat = (readV 1 (regs12 0 0)).toNat % 16 := by
  decide
theorem witness_WaitKeyTakesLowest : ∃ k, keyPressed k (keyDown 15 State.reset) = true := ⟨15, by decide⟩
theorem witness_WaitKeyBlocks : ∀ k, keyPressed k State.reset = false := by decide
theorem witness_BlockedUntilKey : Waiting (placed 0xF50A) := ⟨⟨5, by decide⟩, by decide⟩
/-- A set row byte at row 31, column 63, and its neighbour: both clauses of a pixel. -/
theorem witness_DrawFlipsExactlyTheSprite :
    runs (.drw 1 2 1) (regs12 63 31 |> writeI 0x300 |> memWrite 0x300 0x80)
      (fun t => FrameBuffer.get t.fb 63 31 && !FrameBuffer.get t.fb 0 31 && readV vf t == 0) = true := by decide
theorem witness_DrawTwiceRestores :
    ∃ t, exec (.drw 1 2 1) State.reset = .next t ∧ SameMem State.reset t ∧ SameI State.reset t ∧
      readV 1 t = readV 1 State.reset ∧ readV 2 t = readV 2 State.reset := ⟨_, rfl, fun _ => rfl, rfl, by decide, by decide⟩
theorem witness_StepNeverWritesKeys : after 0x6A05 (keyDown 7 State.reset) (fun t => keyPressed 7 t) = true := by decide
theorem witness_OnlyFiveInstructionsMoveIndex : after 0xA2F0 State.reset (fun t => t.i != State.reset.i) = true := by decide
theorem witness_RegisterFootprint : after 0x6A05 State.reset (fun t => readV 0xA t != readV 0xA State.reset) = true := by decide
theorem witness_MemoryFootprint :
    after 0xF133 (regs12 0x7B 0 |> writeI 0x300) (fun t => byteAt 0x302 t != byteAt 0x302 (regs12 0x7B 0)) = true := by decide
theorem witness_StackFootprint :
    after 0x2300 (stacked 15 0) (fun t => t.sp.val == 16) = true ∧ after 0x00EE (stacked 1 0) (fun t => t.sp.val == 0) = true ∧
    after 0x1200 (stacked 1 0) (fun t => t.sp.val == 1) = true := by decide
theorem witness_DisplayFootprint :
    after 0x00E0 { State.reset with fb := FrameBuffer.flip State.reset.fb 1 0 } (fun t => !FrameBuffer.get t.fb 1 0 && t.drawFlag)
      = true := by decide
/-- DRAW_FLAG was 0: the flag itself changes. -/
theorem witness_DisplayFootprint_flag :
    after 0x00E0 { State.reset with drawFlag := false } (fun t => t.drawFlag) = true := by decide
theorem witness_TimersCountSteps :
    decode (fetch (placed 0xF315)) = .ok (.ldDtVx 3) ∧ runs (.ldDtVx 3) (placed 0xF315) (fun _ => true) = true ∧
    decode (fetch (placed 0xF318)) = .ok (.ldStVx 3) ∧ runs (.ldStVx 3) (placed 0xF318) (fun _ => true) = true := by decide
theorem witness_RandomDrawnOnlyByRnd :
    after 0xC300 State.reset (fun t => t.rndIndex == 1) = true ∧ after 0x6A05 State.reset (fun t => t.rndIndex == 0) = true := by
  decide
theorem witness_StoreSeenByNextFetch :
    decode (fetch (placed 0xF155 |> writeI 0x202)) = .ok (.storeRegs 1) ∧ 1 ≤ (1#4 : Nibble).toNat ∧
    (placed 0xF155 |> writeI 0x202).i = (placed 0xF155).pc + 2#12 := by decide
theorem witness_SelfJumpRunsForever : AtSelfJump (placed 0x1200) := by unfold AtSelfJump; decide
theorem witness_PlacedWordIsFetched : (Instr.jp 0xFFF).wf = true ∧ (0x202 : Addr) ≠ State.reset.pc ∧
    (0x202 : Addr) ≠ State.reset.pc + 1#12 := by decide

end Sys2Proof.Tests
end

section
/-! SUPPORT. The frame of an instruction (10_state.md R10 to R20): which elements of the state its next state can differ in,
said once in `exec_frame`, and the statements of the state family, derived from it. -/

namespace Sys2Proof.Machine

open Sys2Proof

/-! ### Which instructions write which element -/

/-- The instructions that write I (R14). -/
def writesIndex (i : Instr) : Bool :=
  match i with
  | .ldI _ | .addI _ | .ldF _ | .storeRegs _ | .loadRegs _ => true
  | _ => false

/-- The instructions that write memory (R10). -/
def writesMemory (i : Instr) : Bool :=
  match i with
  | .ldB _ | .storeRegs _ => true
  | _ => false

/-- The instructions that write the call stack or SP (R15). -/
def writesStack (i : Instr) : Bool :=
  match i with
  | .call _ | .ret => true
  | _ => false

/-- The instructions that write FB or DRAW_FLAG (R18, R19). -/
def writesDisplay (i : Instr) : Bool :=
  match i with
  | .cls | .drw _ _ _ => true
  | _ => false

theorem writesIndex_iff {i : Instr} : writesIndex i = true ↔
    (∃ nnn, i = .ldI nnn) ∨ ∃ x, i = .addI x ∨ i = .ldF x ∨ i = .storeRegs x ∨ i = .loadRegs x := by
  cases i <;> simp [writesIndex]

theorem writesMemory_iff {i : Instr} : writesMemory i = true ↔ ∃ x, i = .ldB x ∨ i = .storeRegs x := by
  cases i <;> simp [writesMemory]

theorem writesStack_iff {i : Instr} : writesStack i = true ↔ (∃ nnn, i = .call nnn) ∨ i = .ret := by
  cases i <;> simp [writesStack]

theorem writesDisplay_iff {i : Instr} : writesDisplay i = true ↔ i = .cls ∨ ∃ x y n, i = .drw x y n := by
  cases i <;> simp [writesDisplay]

/-! ### The three meanings that branch -/

/-- RET, when it answers a next state: SP is one less, and nothing else differs but PC and the outcome (R111). -/
theorem execRet_next {s u : State} (h : execRet s = .next u) :
    u.sp.val + 1 = s.sp.val ∧ u = { s with sp := u.sp, pc := u.pc, outcome := .completed } := by
  unfold execRet at h
  split at h
  · cases h
  · rename_i t ht
    obtain ⟨-, hpos, hsp, -, ht⟩ := popPc_some ht
    cases h
    exact ⟨by simp only [setOutcome_sp, advance_sp]; omega, by rw [ht]; rfl⟩

/-- CALL, when it answers a next state: SP is one more, and nothing else differs but the stack, PC and the outcome
(R113). -/
theorem execCall_next {nnn : Addr} {s u : State} (h : execCall nnn s = .next u) :
    u.sp.val = s.sp.val + 1 ∧ u = { s with stack := u.stack, sp := u.sp, pc := nnn, outcome := .completed } := by
  unfold execCall at h
  split at h
  · cases h
  · rename_i t ht
    obtain ⟨-, hsp, -, ht⟩ := pushPc_some ht
    cases h
    exact ⟨hsp, by rw [ht]; rfl⟩

/-- LD Vx,K: blocked with nothing changed, or a key's index in Vx and PC advanced (R155). -/
theorem execLdVxK_next {x : Nibble} {s u : State} (h : execLdVxK x s = .next u) :
    u = setOutcome .blocked s ∨ ∃ b, u = (s |> writeV x b |> advance 2 |> setOutcome .completed) := by
  unfold execLdVxK at h
  split at h <;> cases h
  · exact .inl rfl
  · exact .inr ⟨_, rfl⟩

/-! ### The frame of an instruction -/

/-- What an instruction leaves unchanged: KEY and the TONE latch always, and memory, I, the call stack and the display
unless it is one of the instructions that write them. -/
theorem exec_frame {i : Instr} {s u : State} (h : exec i s = .next u) :
    u = { u with
      mem := if writesMemory i then u.mem else s.mem
      i := if writesIndex i then u.i else s.i
      stack := if writesStack i then u.stack else s.stack
      sp := if writesStack i then u.sp else s.sp
      fb := if writesDisplay i then u.fb else s.fb
      drawFlag := if writesDisplay i then u.drawFlag else s.drawFlag
      key := s.key
      tone := s.tone } := by
  cases i
  case ret => rw [(execRet_next h).2]; rfl
  case call nnn => rw [(execCall_next h).2]; rfl
  case ldVxK x => obtain rfl | ⟨b, rfl⟩ := execLdVxK_next h <;> rfl
  case storeRegs x => cases h; rw [storeV_frame]; rfl
  case loadRegs x => cases h; rw [loadV_frame]; rfl
  all_goals cases h; rfl

section
variable {i : Instr} {s u : State}

theorem exec_key (h : exec i s = .next u) : u.key = s.key :=
  (congrArg State.key (exec_frame h)).trans rfl

theorem exec_i (h : exec i s = .next u) (hi : ¬writesIndex i = true) : u.i = s.i :=
  (congrArg State.i (exec_frame h)).trans (if_neg hi)

theorem exec_mem (h : exec i s = .next u) (hi : ¬writesMemory i = true) : u.mem = s.mem :=
  (congrArg State.mem (exec_frame h)).trans (if_neg hi)

theorem exec_byteAt (h : exec i s = .next u) (hi : ¬writesMemory i = true) (a : Addr) : byteAt a u = byteAt a s :=
  congrArg (Memory.read · (memAddr a.toNat)) (exec_mem h hi)

theorem exec_stack (h : exec i s = .next u) (hi : ¬writesStack i = true) : u.sp = s.sp ∧ u.stack = s.stack :=
  ⟨(congrArg State.sp (exec_frame h)).trans (if_neg hi), (congrArg State.stack (exec_frame h)).trans (if_neg hi)⟩

theorem exec_display (h : exec i s = .next u) (hi : ¬writesDisplay i = true) :
    u.fb = s.fb ∧ u.drawFlag = s.drawFlag :=
  ⟨(congrArg State.fb (exec_frame h)).trans (if_neg hi), (congrArg State.drawFlag (exec_frame h)).trans (if_neg hi)⟩

/-- The instructions that write the display set DRAW_FLAG (R18). -/
theorem exec_drawFlag (h : exec i s = .next u) (hi : writesDisplay i = true) : u.drawFlag = true := by
  obtain rfl | ⟨x, y, n, rfl⟩ := writesDisplay_iff.mp hi <;> cases h <;> rfl

/-- A register an instruction does not have as a destination reads as before (R11, R12). -/
theorem exec_readV (h : exec i s = .next u) {k : Nibble} (hk : ¬mayWriteV i k = true) : readV k u = readV k s := by
  cases i
  case ret => rw [(execRet_next h).2]; rfl
  case call nnn => rw [(execCall_next h).2]; rfl
  case ldVxK x =>
    obtain rfl | ⟨b, rfl⟩ := execLdVxK_next h
    · rfl
    · simp_all [mayWriteV]
  case storeRegs x => cases h; rw [storeV_frame]; rfl
  case loadRegs x =>
    cases h
    have hlt : ¬k.toNat < x.toNat + 1 := by simpa [mayWriteV, Nat.lt_succ_iff] using hk
    simp [loadV_read, hlt, show x.toNat + 1 ≤ 16 from x.isLt]
  -- the result to Vx, then the flag to VF (R91)
  case addReg | subReg | shr | subnReg | shl => cases h; simp_all [mayWriteV, writeResultThenFlag]
  -- one destination, Vx or VF
  case ldImm | addImm | ldReg | orReg | andReg | xorReg | rnd | ldVxDt | drw | addI => cases h; simp_all [mayWriteV]
  -- no destination
  all_goals cases h; rfl

end

/-! ### The bytes a store writes (R33, R133, R134) -/

theorem memAddr_indexed_sub (a : Addr) (s : State) : memAddr (indexed (a - s.i).toNat s) = a := by
  have := a.isLt
  have := s.i.isLt
  rw [memAddr, indexed, ← BitVec.toNat_inj, BitVec.toNat_ofNat, BitVec.toNat_sub]
  omega

/-- A byte LD B,Vx changes is one of the three it stores. -/
theorem execLdB_byteAt {x : Nibble} {s u : State} {a : Addr} (h : execLdB x s = .next u)
    (hne : byteAt a u ≠ byteAt a s) : ∃ k, k < 3 ∧ a = memAddr (indexed k s) := by
  by_contra hk
  have hk' : ∀ k < 3, a ≠ memAddr (indexed k s) := fun k hk3 ha => hk ⟨k, hk3, ha⟩
  cases h
  apply hne
  simp [byteAt, memRead_memWrite, hk']

/-- A byte LD [I],Vx changes is one of the X + 1 it stores. -/
theorem execStoreRegs_byteAt {x : Nibble} {s u : State} {a : Addr} (h : execStoreRegs x s = .next u)
    (hne : byteAt a u ≠ byteAt a s) : ∃ k, k ≤ x.toNat ∧ a = memAddr (indexed k s) := by
  refine ⟨(a - s.i).toNat, ?_, (memAddr_indexed_sub a s).symm⟩
  by_contra hlt
  cases h
  apply hne
  have hread := storeV_read (x.toNat + 1) x.isLt s a
  rwa [if_neg (by omega)] at hread

/-! ### The output latches (R23, R24) -/

/-- The state with other values in the model's two output latches. -/
def withLatches (b : Bool) (o : StepOutcome) (s : State) : State := { s with tone := b, outcome := o }

section
variable (b : Bool) (o : StepOutcome) (s : State)

@[simp] theorem memWrite_withLatches (a : Nat) (c : Byte) :
    memWrite a c (withLatches b o s) = withLatches b o (memWrite a c s) := rfl
@[simp] theorem writeV_withLatches (x : Nibble) (c : Byte) :
    writeV x c (withLatches b o s) = withLatches b o (writeV x c s) := rfl
@[simp] theorem writeI_withLatches (a : Addr) : writeI a (withLatches b o s) = withLatches b o (writeI a s) := rfl
@[simp] theorem writeFb_withLatches (f : FrameBuffer) :
    writeFb f (withLatches b o s) = withLatches b o (writeFb f s) := rfl
@[simp] theorem markRedraw_withLatches : markRedraw (withLatches b o s) = withLatches b o (markRedraw s) := rfl
@[simp] theorem advance_withLatches (n : Nat) : advance n (withLatches b o s) = withLatches b o (advance n s) := rfl
@[simp] theorem readV_withLatches (x : Nibble) : readV x (withLatches b o s) = readV x s := rfl
@[simp] theorem memRead_withLatches (a : Nat) : memRead a (withLatches b o s) = memRead a s := rfl
@[simp] theorem indexed_withLatches (k : Nat) : indexed k (withLatches b o s) = indexed k s := rfl
@[simp] theorem indexPast_withLatches (n : Nat) : indexPast n (withLatches b o s) = indexPast n s := rfl
@[simp] theorem lowestKey_withLatches : lowestKey (withLatches b o s) = lowestKey s := rfl
@[simp] theorem fetchDecode_withLatches : fetchDecode (withLatches b o s) = fetchDecode s := rfl

@[simp] theorem plotSprite_withLatches (x0 y0 n : Nat) :
    plotSprite x0 y0 n (withLatches b o s) = plotSprite x0 y0 n s := by
  simp only [plotSprite, memRead_withLatches, indexed_withLatches]; rfl

@[simp] theorem storeV_withLatches (n : Nat) : storeV n (withLatches b o s) = withLatches b o (storeV n s) := by
  simp only [storeV, indexed_withLatches, readV_withLatches]
  exact List.foldl_hom (withLatches b o) fun t k => memWrite_withLatches b o t _ _

@[simp] theorem loadV_withLatches (n : Nat) : loadV n (withLatches b o s) = withLatches b o (loadV n s) := by
  simp only [loadV, indexed_withLatches, memRead_withLatches]
  exact List.foldl_hom (withLatches b o) fun t k => writeV_withLatches b o t _ _

@[simp] theorem popPc_withLatches : popPc (withLatches b o s) = (popPc s).map (withLatches b o) := by
  by_cases hs : 0 < s.sp.val <;> simp [popPc, withLatches, hs]

@[simp] theorem pushPc_withLatches : pushPc (withLatches b o s) = (pushPc s).map (withLatches b o) := by
  by_cases hs : s.sp.val < 16 <;> simp [pushPc, withLatches, hs]

/-- The end of a completed step overwrites both latches (R76, R77). -/
@[simp] theorem endStep_completed_withLatches :
    endStep (completed (withLatches b o s)) = endStep (completed s) := rfl

/-- An instruction and the tick after it answer the same whatever the latches hold: no instruction reads them, every
instruction writes the outcome, and the tick writes TONE. -/
theorem endStep_exec_withLatches (i : Instr) : endStep (exec i (withLatches b o s)) = endStep (exec i s) := by
  cases i
  case ret => simp only [exec, execRet, popPc_withLatches]; cases popPc s <;> rfl
  case call nnn => simp only [exec, execCall, pushPc_withLatches]; cases pushPc s <;> rfl
  case ldVxK x => simp only [exec, execLdVxK, lowestKey_withLatches]; cases lowestKey s <;> rfl
  case drw x y n => simp [exec, execDrw]
  case ldB x => simp [exec, execLdB]
  case storeRegs x => simp [exec, execStoreRegs]
  case loadRegs x => simp [exec, execLoadRegs]
  all_goals rfl

theorem step_withLatches : step (withLatches b o s) = step s := by
  unfold step
  rw [fetchDecode_withLatches]
  cases fetchDecode s with
  | ok i => exact endStep_exec_withLatches b o s i
  | error e => rfl

end

/-! ### What the tick leaves unchanged (R76) -/

@[simp] theorem tick_i (s : State) : (tick s).i = s.i := rfl
@[simp] theorem tick_stack (s : State) : (tick s).stack = s.stack := rfl
@[simp] theorem tick_sp (s : State) : (tick s).sp = s.sp := rfl
@[simp] theorem tick_fb (s : State) : (tick s).fb = s.fb := rfl
@[simp] theorem tick_drawFlag (s : State) : (tick s).drawFlag = s.drawFlag := rfl
@[simp] theorem tick_key (s : State) : (tick s).key = s.key := rfl
@[simp] theorem byteAt_tick (a : Addr) (s : State) : byteAt a (tick s) = byteAt a s := rfl

/-! ### The statements -/

/-- Settles O49: no instruction writes KEY, and the tick does not. -/
theorem stepNeverWritesKeys : Obligations.StepNeverWritesKeys := by
  intro s t h
  obtain ⟨i, u, -, hu, rfl⟩ := step_next h
  rw [tick_key, exec_key hu]

/-- Settles O50: I is in the frame of every other instruction. -/
theorem onlyFiveInstructionsMoveIndex : Obligations.OnlyFiveInstructionsMoveIndex := by
  intro s t h hne
  obtain ⟨i, u, hi, hu, rfl⟩ := step_next h
  rw [tick_i] at hne
  have hw : writesIndex i = true := by_contra fun hw => hne (exec_i hu hw)
  obtain ⟨nnn, rfl⟩ | ⟨x, hx⟩ := writesIndex_iff.mp hw
  · exact .inl ⟨nnn, hi⟩
  · refine .inr ⟨x, ?_⟩
    obtain rfl | rfl | rfl | rfl := hx
    · exact .inl hi
    · exact .inr (.inl hi)
    · exact .inr (.inr (.inl hi))
    · exact .inr (.inr (.inr hi))

/-- Settles O51: a register that is no destination reads as before. -/
theorem registerFootprint : Obligations.RegisterFootprint := by
  intro s t k h hne
  obtain ⟨i, u, hi, hu, rfl⟩ := step_next h
  rw [readV_tick] at hne
  exact ⟨i, hi, by_contra fun hk => hne (exec_readV hu hk)⟩

/-- Settles O52: memory is in the frame of every other instruction, and the two stores change only the bytes they store. -/
theorem memoryFootprint : Obligations.MemoryFootprint := by
  intro s t a h hne
  obtain ⟨i, u, hi, hu, rfl⟩ := step_next h
  rw [byteAt_tick] at hne
  have hw : writesMemory i = true := by_contra fun hw => hne (exec_byteAt hu hw a)
  obtain ⟨x, rfl | rfl⟩ := writesMemory_iff.mp hw
  · exact ⟨x, .inl ⟨hi, execLdB_byteAt hu hne⟩⟩
  · exact ⟨x, .inr ⟨hi, execStoreRegs_byteAt hu hne⟩⟩

/-- Settles O53: the call stack is in the frame of every instruction but CALL and RET. -/
theorem stackFootprint : Obligations.StackFootprint := by
  intro s t h
  obtain ⟨i, u, hi, hu, rfl⟩ := step_next h
  simp only [tick_sp, tick_stack]
  by_cases hw : writesStack i = true
  · obtain ⟨nnn, rfl⟩ | rfl := writesStack_iff.mp hw
    · exact .inr (.inl ⟨(execCall_next hu).1, nnn, hi⟩)
    · obtain ⟨hsp, heq⟩ := execRet_next hu
      exact .inr (.inr ⟨hsp, (congrArg State.stack heq).trans rfl, hi⟩)
  · exact .inl (exec_stack hu hw)

/-- Settles O54: the display is in the frame of every instruction but CLS and DRW, and these two set DRAW_FLAG. -/
theorem displayFootprint : Obligations.DisplayFootprint := by
  intro s t h
  obtain ⟨i, u, hi, hu, rfl⟩ := step_next h
  simp only [tick_fb, tick_drawFlag]
  by_cases hw : writesDisplay i = true
  · have hflag := exec_drawFlag hu hw
    have hdec : decode (fetch s) = .ok .cls ∨ ∃ x y n, decode (fetch s) = .ok (.drw x y n) := by
      obtain rfl | ⟨x, y, n, rfl⟩ := writesDisplay_iff.mp hw
      · exact .inl hi
      · exact .inr ⟨x, y, n, hi⟩
    exact ⟨fun _ => hflag, fun _ => hdec, fun _ => ⟨hflag, hdec⟩⟩
  · obtain ⟨hfb, hflag⟩ := exec_display hu hw
    exact ⟨fun hs => hflag.trans hs, fun hne => absurd hflag hne, fun hne => absurd hfb hne⟩

/-- Settles O57: the fetch and every instruction ignore the two latches, and the step overwrites both. -/
theorem outputsAreNeverRead : Obligations.OutputsAreNeverRead :=
  fun s b o => step_withLatches b o s

end Sys2Proof.Machine
end

section
/-! SUPPORT. Memory as the fetch sees it (20_memory.md R34, R41): the fetch as a function of two bytes of memory, and the
statements of the memory family, derived from it. -/

namespace Sys2Proof.Machine

open Sys2Proof

/-! ### Addresses and bytes (R32, R33) -/

/-- An address computed from a 12-bit one wraps at 4096 (D4, D6). -/
theorem memAddr_toNat_add (a : Addr) (n : Nat) : memAddr (a.toNat + n) = a + BitVec.ofNat 12 n := by
  rw [memAddr, BitVec.ofNat_add, BitVec.ofNat_toNat, BitVec.setWidth_eq]

/-- A byte after a store: the byte stored at its address, every other byte as before (R36). -/
theorem byteAt_memWrite (a : Addr) (c : Nat) (b : Byte) (s : State) :
    byteAt a (memWrite c b s) = if a = memAddr c then b else byteAt a s := by
  rw [byteAt, memRead_memWrite, memAddr_toNat, byteAt]

/-- The fetch as the two bytes it reads, the second at the next address modulo 4096 (R34, D6). -/
theorem fetch_eq (s : State) : fetch s = opcodeOfBytes (byteAt s.pc s) (byteAt (s.pc + 1#12) s) := by
  have hnext : memAddr (s.pc.toNat + 1) = memAddr (s.pc + 1#12).toNat := by
    rw [memAddr_toNat_add, memAddr_toNat]
  simp only [fetch, byteAt, memRead, hnext]

/-! ### Decoding an encoded instruction (R52, R55) -/

/-- Every instruction is decoded from its own opcode: the family selector leads the decoder to the instruction's family,
whose fields are the operands. -/
@[simp] theorem decode_encode (i : Instr) : decode (encode i) = .ok i := by
  cases i
  -- the two opcodes without operands
  case cls | ret => decide
  -- the selector alone decides
  case jp | call | ldI | jpV0 | seImm | sneImm | ldImm | addImm | rnd | drw => simp [decode, encode]
  -- the selector, then N = 0
  case seReg | sneReg => simp [decode, encode]
  -- family 8, then N
  case ldReg | orReg | andReg | xorReg | addReg | subReg | shr | subnReg | shl =>
    simp [decode, encode, decodeFamily8]
  -- family E, then NN
  case skp | sknp => simp [decode, encode, decodeFamilyE]
  -- family F, then NN
  all_goals simp [decode, encode, decodeFamilyF]

/-! ### A word placed where the step fetches it -/

/-- Placing a 16-bit word stores its two bytes at PC and after it (R34). -/
theorem withFetchWord_eq (s : State) (op : Word) :
    s.withFetchWord 16 op.toNat =
      (s |> memWrite s.pc.toNat (highByte op) |> memWrite (s.pc.toNat + 1) (lowByte op)) := by
  rw [State.withFetchWord, Nat.mod_eq_of_lt op.isLt, BitVec.ofNat_toNat, BitVec.setWidth_eq]

/-- The bytes after a word is placed. -/
theorem byteAt_withFetchWord (s : State) (op : Word) (a : Addr) :
    byteAt a (s.withFetchWord 16 op.toNat) =
      if a = s.pc + 1#12 then lowByte op else if a = s.pc then highByte op else byteAt a s := by
  rw [withFetchWord_eq, byteAt_memWrite, byteAt_memWrite, memAddr_toNat_add, memAddr_toNat]

/-- The word placed is the word fetched. -/
theorem fetch_withFetchWord (s : State) (op : Word) : fetch (s.withFetchWord 16 op.toNat) = op := by
  have hpc : (s.withFetchWord 16 op.toNat).pc = s.pc := rfl
  have hne : s.pc ≠ s.pc + 1#12 := by bv_omega
  rw [fetch_eq, hpc, byteAt_withFetchWord, byteAt_withFetchWord, if_neg hne, if_pos rfl, if_pos rfl,
    opcodeOfBytes_bytes]

/-! ### Running what was fetched (R71) -/

/-- A step runs the instruction decoded from the fetched opcode, and then ends. -/
theorem step_of_decode {s : State} {i : Instr} (h : decode (fetch s) = .ok i) : step s = endStep (exec i s) := by
  simp only [step, fetchDecode, h]

/-! ### Stored registers as the next fetch sees them (R134) -/

/-- The state LD [I],Vx answers with has PC advanced by 2. -/
theorem execStoreRegs_pc {x : Nibble} {s u : State} (h : execStoreRegs x s = .next u) : u.pc = s.pc + 2#12 := by
  cases h
  show memAddr ((storeV (x.toNat + 1) s).pc.toNat + 2) = _
  rw [memAddr_toNat_add, storeV_frame]

/-- The byte at I + k after LD [I],Vx is V[k], for k up to X. -/
theorem execStoreRegs_byteAt_index {x : Nibble} {s u : State} (h : execStoreRegs x s = .next u) (k : Nibble)
    (hk : k.toNat ≤ x.toNat) : byteAt (s.i + k.setWidth 12) u = readV k s := by
  have hoff : (s.i + k.setWidth 12 - s.i).toNat = k.toNat := by
    rw [add_sub_cancel_left, BitVec.toNat_setWidth_of_le (by decide)]
  have hread := storeV_read (x.toNat + 1) x.isLt s (s.i + k.setWidth 12)
  rw [hoff, if_pos (by omega), BitVec.ofNat_toNat, BitVec.setWidth_eq] at hread
  cases h
  exact hread

/-! ### The statements -/

/-- Settles O8: the fetch puts the byte at PC in the high half. -/
theorem fetchBigEndian : Obligations.FetchBigEndian := by
  intro s
  rw [fetch_eq, opcodeOfBytes_toNat]

/-- Settles O60: the two bytes placed are the two bytes fetched, and they make up the instruction's opcode. -/
theorem placedWordIsFetched : Obligations.PlacedWordIsFetched := by
  intro s i _
  refine ⟨?_, fun a hpc hnext => ?_⟩
  · rw [fetchDecode, fetch_withFetchWord, decode_encode]
  · rw [byteAt_withFetchWord, if_neg hnext, if_neg hpc]

/-- Settles O58: PC after the store is I, so the next fetch reads the bytes at I and I + 1, which hold V0 and V1. -/
theorem storeSeenByNextFetch : Obligations.StoreSeenByNextFetch := by
  intro x s hdec hx hi
  obtain ⟨u, hu⟩ : ∃ u, execStoreRegs x s = .next u := ⟨_, rfl⟩
  have hstep : step s = .next (tick u) := (step_of_decode hdec).trans (congrArg endStep hu)
  have hpc : (tick u).pc = s.i := (execStoreRegs_pc hu).trans hi.symm
  have h0 : byteAt s.i u = readV 0#4 s := by simpa using execStoreRegs_byteAt_index hu 0#4 (Nat.zero_le _)
  have h1 : byteAt (s.i + 1#12) u = readV 1#4 s := execStoreRegs_byteAt_index hu 1#4 hx
  refine ⟨tick u, hstep, ?_⟩
  rw [fetch_eq, hpc, byteAt_tick, byteAt_tick, h0, h1]

end Sys2Proof.Machine
end

section
/-! SUPPORT. The encoding (30_encoding.md): what the decoder answers on every opcode, said once in `decode_answers`, which
opcodes select a row of R54, and the statements of the encoding family, derived from these. -/

namespace Sys2Proof.Machine

open Sys2Proof

/-! ### An opcode is made up of its fields (R51, R52) -/

theorem formatNNN_of_fields {op : Word} {o : Nibble} (ho : fieldOP op = o) : formatNNN o (fieldNNN op) = op := by
  subst ho
  apply BitVec.eq_of_toNat_eq; rw [formatNNN_toNat, fieldOP_toNat, fieldNNN_toNat]; omega

theorem formatXNN_of_fields {op : Word} {o : Nibble} {nn : Byte} (ho : fieldOP op = o) (hnn : fieldNN op = nn) :
    formatXNN o (fieldX op) nn = op := by
  subst ho hnn
  apply BitVec.eq_of_toNat_eq; rw [formatXNN_toNat, fieldOP_toNat, fieldX_toNat, fieldNN_toNat]; omega

theorem formatXYN_of_fields {op : Word} {o n : Nibble} (ho : fieldOP op = o) (hn : fieldN op = n) :
    formatXYN o (fieldX op) (fieldY op) n = op := by
  subst ho hn
  apply BitVec.eq_of_toNat_eq; rw [formatXYN_toNat, fieldOP_toNat, fieldX_toNat, fieldY_toNat, fieldN_toNat]; omega

/-! ### What the decoder answers (R55, R56) -/

/-- The opcode is in the table of R56. -/
def Undefined (op : Word) : Prop :=
  (op.toNat / 4096 = 0x0 ∧ op ≠ 0x00E0#16 ∧ op ≠ 0x00EE#16) ∨
  (op.toNat / 4096 = 0x5 ∧ op.toNat % 16 ≠ 0) ∨
  (op.toNat / 4096 = 0x8 ∧ op.toNat % 16 ∈ [0x8, 0x9, 0xA, 0xB, 0xC, 0xD, 0xF]) ∨
  (op.toNat / 4096 = 0x9 ∧ op.toNat % 16 ≠ 0) ∨
  (op.toNat / 4096 = 0xE ∧ op.toNat % 256 ∉ [0x9E, 0xA1]) ∨
  (op.toNat / 4096 = 0xF ∧ op.toNat % 256 ∉ [0x07, 0x0A, 0x15, 0x18, 0x1E, 0x29, 0x33, 0x55, 0x65])

/-- The table of R56 over the fields of the opcode. -/
theorem undefined_iff_fields {op : Word} : Undefined op ↔
    (fieldOP op = 0x0#4 ∧ op ≠ 0x00E0#16 ∧ op ≠ 0x00EE#16) ∨
    (fieldOP op = 0x5#4 ∧ fieldN op ≠ 0#4) ∨
    (fieldOP op = 0x8#4 ∧ fieldN op ∉ [0x0#4, 0x1#4, 0x2#4, 0x3#4, 0x4#4, 0x5#4, 0x6#4, 0x7#4, 0xE#4]) ∨
    (fieldOP op = 0x9#4 ∧ fieldN op ≠ 0#4) ∨
    (fieldOP op = 0xE#4 ∧ fieldNN op ∉ [0x9E#8, 0xA1#8]) ∨
    (fieldOP op = 0xF#4 ∧
      fieldNN op ∉ [0x07#8, 0x0A#8, 0x15#8, 0x18#8, 0x1E#8, 0x29#8, 0x33#8, 0x55#8, 0x65#8]) := by
  have hN : (fieldN op).toNat ∈ [0x8, 0x9, 0xA, 0xB, 0xC, 0xD, 0xF] ↔
      fieldN op ∉ [0x0#4, 0x1#4, 0x2#4, 0x3#4, 0x4#4, 0x5#4, 0x6#4, 0x7#4, 0xE#4] := by
    generalize fieldN op = n
    revert n
    decide
  simp only [Undefined, ← fieldOP_toNat, ← fieldN_toNat, ← fieldNN_toNat, hN]
  simp only [BitVec.toNat_eq, List.mem_cons, List.not_mem_nil, BitVec.toNat_ofNat, ne_eq]

/-- An answer of the decoder on op is right: an instruction is one whose encoding is op, and an error carries op, which is in
the table of R56. -/
def AnswersRightly (op : Word) : Except DecodeError Instr → Prop
  | .ok i => encode i = op
  | .error e => e = .unknownOpcode op ∧ Undefined op

/-- A test of the decoder: the answer is right when each branch's is. -/
theorem answers_ite {op : Word} {c : Prop} [Decidable c] {a b : Except DecodeError Instr}
    (ha : c → AnswersRightly op a) (hb : ¬c → AnswersRightly op b) : AnswersRightly op (if c then a else b) := by
  split
  · exact ha ‹c›
  · exact hb ‹¬c›

theorem decodeFamily0_answers {op : Word} (ho : fieldOP op = 0x0#4) : AnswersRightly op (decodeFamily0 op) := by
  unfold decodeFamily0
  refine answers_ite Eq.symm fun hcls => ?_
  refine answers_ite Eq.symm fun hret => ?_
  exact ⟨rfl, undefined_iff_fields.mpr (.inl ⟨ho, hcls, hret⟩)⟩

theorem decodeFamily8_answers {op : Word} (ho : fieldOP op = 0x8#4) : AnswersRightly op (decodeFamily8 op) := by
  unfold decodeFamily8
  repeat refine answers_ite (formatXYN_of_fields ho) fun _ => ?_
  exact ⟨rfl, undefined_iff_fields.mpr (by simp [*])⟩

theorem decodeFamilyE_answers {op : Word} (ho : fieldOP op = 0xE#4) : AnswersRightly op (decodeFamilyE op) := by
  unfold decodeFamilyE
  repeat refine answers_ite (formatXNN_of_fields ho) fun _ => ?_
  exact ⟨rfl, undefined_iff_fields.mpr (by simp [*])⟩

theorem decodeFamilyF_answers {op : Word} (ho : fieldOP op = 0xF#4) : AnswersRightly op (decodeFamilyF op) := by
  unfold decodeFamilyF
  repeat refine answers_ite (formatXNN_of_fields ho) fun _ => ?_
  exact ⟨rfl, undefined_iff_fields.mpr (by simp [*])⟩

/-- The decoder's answer is right on every opcode, family by family. -/
theorem decode_answers (op : Word) : AnswersRightly op (decode op) := by
  unfold decode
  refine answers_ite decodeFamily0_answers fun h0 => ?_
  refine answers_ite formatNNN_of_fields fun h1 => ?_
  refine answers_ite formatNNN_of_fields fun h2 => ?_
  refine answers_ite (formatXNN_of_fields · rfl) fun h3 => ?_
  refine answers_ite (formatXNN_of_fields · rfl) fun h4 => ?_
  refine answers_ite (fun h5 => answers_ite (formatXYN_of_fields h5) fun hn => ?_) fun h5 => ?_
  · exact ⟨rfl, undefined_iff_fields.mpr (by simp [h5, hn])⟩
  refine answers_ite (formatXNN_of_fields · rfl) fun h6 => ?_
  refine answers_ite (formatXNN_of_fields · rfl) fun h7 => ?_
  refine answers_ite decodeFamily8_answers fun h8 => ?_
  refine answers_ite (fun h9 => answers_ite (formatXYN_of_fields h9) fun hn => ?_) fun h9 => ?_
  · exact ⟨rfl, undefined_iff_fields.mpr (by simp [h9, hn])⟩
  refine answers_ite formatNNN_of_fields fun hA => ?_
  refine answers_ite formatNNN_of_fields fun hB => ?_
  refine answers_ite (formatXNN_of_fields · rfl) fun hC => ?_
  refine answers_ite (formatXYN_of_fields · rfl) fun hD => ?_
  refine answers_ite decodeFamilyE_answers fun hE => ?_
  exact decodeFamilyF_answers (by bv_omega)

/-- An instruction decoded encodes to the opcode it was decoded from. -/
theorem encode_of_decode {op : Word} {i : Instr} (h : decode op = .ok i) : encode i = op := by
  have hop := decode_answers op
  rwa [h] at hop

/-- An opcode decodes to the instruction whose encoding it is. -/
theorem decode_of_encode {op : Word} {i : Instr} (h : encode i = op) : decode op = .ok i := h ▸ decode_encode i

/-- A decode error carries the opcode, and the opcode is in the table of R56. -/
theorem undefined_of_decode {op : Word} {e : DecodeError} (h : decode op = .error e) :
    e = .unknownOpcode op ∧ Undefined op := by
  have hop := decode_answers op
  rwa [h] at hop

/-- No instruction's opcode is in the table of R56. -/
theorem not_undefined_encode (i : Instr) : ¬Undefined (encode i) := by
  rw [undefined_iff_fields]
  cases i
  case cls | ret => decide
  all_goals simp [encode]

/-- An opcode decodes to the instruction it encodes, or it is in the table of R56. -/
theorem encoded_or_undefined (op : Word) : (∃ i, encode i = op) ∨ Undefined op := by
  cases h : decode op with
  | ok i => exact .inl ⟨i, encode_of_decode h⟩
  | error e => exact .inr (undefined_of_decode h).2

/-! ### The rows of the opcode map (R54) -/

theorem selects_iff {r : OpcodeRow} {op : Word} : r.selects op = true ↔ op &&& r.mask = r.value := beq_iff_eq

/-- Two rows whose values agree on the bits both masks keep are the same row. -/
theorem opcodeTable_separated : ∀ r ∈ opcodeTable, ∀ q ∈ opcodeTable,
    r.value &&& q.mask = q.value &&& r.mask → r = q := by
  decide

open Laws.EncodesInRow in
/-- Every instruction's opcode is selected by the row of its mnemonic. -/
theorem encode_in_row (i : Instr) : Statement i := by
  cases i
  exacts [cls, ret, jp _, call _, seImm _ _, sneImm _ _, seReg _ _, ldImm _ _, addImm _ _, ldReg _ _, orReg _ _,
    andReg _ _, xorReg _ _, addReg _ _, subReg _ _, shr _ _, subnReg _ _, shl _ _, sneReg _ _, ldI _, jpV0 _, rnd _ _,
    drw _ _ _, skp _, sknp _, ldVxDt _, ldVxK _, ldDtVx _, ldStVx _, addI _, ldF _, ldB _, storeRegs _, loadRegs _]

/-- Every row compares the family selector, and its mask keeps every field the table of R56 tests in the row's family. -/
theorem opcodeTable_masks : ∀ r ∈ opcodeTable, fieldOP r.mask = BitVec.allOnes 4 ∧
    (fieldOP r.value = 0x0#4 → r.mask = BitVec.allOnes 16) ∧
    (fieldOP r.value ∈ [0x5#4, 0x8#4, 0x9#4] → fieldN r.mask = BitVec.allOnes 4) ∧
    (fieldOP r.value ∈ [0xE#4, 0xF#4] → fieldNN r.mask = BitVec.allOnes 8) := by
  decide

/-- No row's value, read as an opcode, is in the table of R56. -/
theorem opcodeTable_values_defined : ∀ r ∈ opcodeTable, ¬Undefined r.value := by
  simp only [undefined_iff_fields]
  decide

/-- A field the mask keeps whole is the same before and after masking. -/
theorem extractLsb'_of_and_eq {op m v : Word} {start len : Nat} (hval : op &&& m = v)
    (hm : m.extractLsb' start len = BitVec.allOnes len) : v.extractLsb' start len = op.extractLsb' start len := by
  rw [← hval, BitVec.extractLsb'_and, hm, BitVec.and_allOnes]

/-- An opcode that selects a row has the fields of the row's value that the table of R56 tests, so it is not in that table
either. -/
theorem not_undefined_of_selects {op : Word} {r : OpcodeRow} (hr : r ∈ opcodeTable) (hsel : r.selects op = true) :
    ¬Undefined op := by
  obtain ⟨hOPmask, hallmask, hNmask, hNNmask⟩ := opcodeTable_masks r hr
  have hval : op &&& r.mask = r.value := selects_iff.mp hsel
  have hOP : fieldOP r.value = fieldOP op := extractLsb'_of_and_eq hval hOPmask
  rw [hOP] at hallmask hNmask hNNmask
  have hall (h : fieldOP op = 0x0#4) : r.value = op := by
    rw [← hval, hallmask h, BitVec.and_allOnes]
  have hN (h : fieldOP op ∈ [0x5#4, 0x8#4, 0x9#4]) : fieldN r.value = fieldN op :=
    extractLsb'_of_and_eq hval (hNmask h)
  have hNN (h : fieldOP op ∈ [0xE#4, 0xF#4]) : fieldNN r.value = fieldNN op :=
    extractLsb'_of_and_eq hval (hNNmask h)
  refine mt (fun hundef => ?_) (opcodeTable_values_defined r hr)
  rw [undefined_iff_fields] at hundef ⊢
  rw [hOP]
  obtain ⟨ho, h⟩ | ⟨ho, h⟩ | ⟨ho, h⟩ | ⟨ho, h⟩ | ⟨ho, h⟩ | ⟨ho, h⟩ := hundef
  · rw [hall ho]; exact .inl ⟨ho, h⟩
  · rw [hN (by simp [ho])]; exact .inr (.inl ⟨ho, h⟩)
  · rw [hN (by simp [ho])]; exact .inr (.inr (.inl ⟨ho, h⟩))
  · rw [hN (by simp [ho])]; exact .inr (.inr (.inr (.inl ⟨ho, h⟩)))
  · rw [hNN (by simp [ho])]; exact .inr (.inr (.inr (.inr (.inl ⟨ho, h⟩))))
  · rw [hNN (by simp [ho])]; exact .inr (.inr (.inr (.inr (.inr ⟨ho, h⟩))))

/-! ### A jump to itself (R59, R81) -/

/-- Any number of steps at a jump to itself: nothing differs but the timers and the two latches. -/
theorem steps_of_atSelfJump (n : Nat) {s : State} (h : AtSelfJump s) :
    ∃ t, steps n s = .next t ∧ t = { s with dt := t.dt, st := t.st, tone := t.tone, outcome := t.outcome } := by
  induction n generalizing s with
  | zero => exact ⟨s, rfl, rfl⟩
  | succ n ih =>
    have hstep : step s = .next (tick (setOutcome .completed s)) := step_of_decode h
    have hthere : AtSelfJump (tick (setOutcome .completed s)) := (fetchDecode_tick _).trans h
    obtain ⟨t, ht, heq⟩ := ih hthere
    rw [tick_eq] at heq
    exact ⟨t, by rw [steps, hstep]; exact ht, heq⟩

/-! ### The statements -/

/-- Settles O1: the fields of an encoded opcode are the operands, and its two bytes make it up again. -/
theorem decodeEncodeRoundTrip : Obligations.DecodeEncodeRoundTrip := by
  intro i _
  exact ⟨decode_encode i, by rw [decodeBytes, opcodeOfBytes_bytes, decode_encode]⟩

/-- Settles O2: every answer of the decoder is right. -/
theorem encodeInvertsDecode : Obligations.EncodeInvertsDecode :=
  fun _ _ => encode_of_decode

/-- Settles O4: the values of two rows an opcode selects agree on the bits both masks keep. -/
theorem opcodeRowsDisjoint : Obligations.OpcodeRowsDisjoint := by
  intro op r q hr hq hrop hqop
  refine opcodeTable_separated r hr q hq ?_
  rw [← selects_iff.mp hrop, ← selects_iff.mp hqop, BitVec.and_assoc, BitVec.and_assoc, BitVec.and_comm r.mask]

/-- Settles O3: what decodes is an instruction's opcode, and that selects the instruction's own row and no
other; an undefined opcode selects no row. -/
theorem decodeAgreesWithOpcodeMap : Obligations.DecodeAgreesWithOpcodeMap := by
  intro op
  constructor
  · intro i hi
    rw [← encode_of_decode hi]
    exact encode_in_row i
  · intro r hr hrop
    obtain ⟨i, rfl⟩ | hundef := encoded_or_undefined op
    · obtain ⟨q, hq, hmn, hqop⟩ := encode_in_row i
      exact ⟨i, decode_encode i, by rw [← hmn, opcodeRowsDisjoint _ r q hr hq hrop hqop]⟩
    · exact absurd hundef (not_undefined_of_selects hr hrop)

/-- Settles O5: an error's opcode is in the table of R56, and an opcode in that table is no instruction's. -/
theorem undefinedOpcodesExactly : Obligations.UndefinedOpcodesExactly := by
  intro op
  refine ⟨fun e he => (undefined_of_decode he).1, fun h => (undefined_of_decode h).2, fun hundef => ?_⟩
  cases h : decode op with
  | ok i => exact absurd hundef (encode_of_decode h ▸ not_undefined_encode i)
  | error e => rw [(undefined_of_decode h).1]

/-- Settles O59: PC, the registers, memory, I and the stack are not among what differs. -/
theorem selfJumpRunsForever : Obligations.SelfJumpRunsForever := by
  intro n s h
  obtain ⟨t, ht, heq⟩ := steps_of_atSelfJump n h
  refine ⟨t, ht, ?_⟩
  rw [heq]
  exact ⟨rfl, fun _ => rfl, fun _ => rfl, rfl, ⟨rfl, rfl⟩, h⟩

/-- Settles O6: each word is the opcode of the instruction it stands for. -/
theorem sampleWordsDecode : Obligations.SampleWordsDecode := by
  and_intros <;> exact decode_of_encode (by decide)

end Sys2Proof.Machine
end

section
/-! SUPPORT. The step cycle (40_step_cycle.md): what an instruction leaves in the draw counter and the outcome latch, said
once in `exec_modelFields`, when a step is blocked (R79), what an error step shows the host (R78), the tick's counts (R76),
and the statements of the step family, derived from these. -/

namespace Sys2Proof.Machine

open Sys2Proof

/-! ### The draw counter and the outcome latch -/

/-- The instruction that draws a random byte (R80, R156). -/
def drawsRandom (i : Instr) : Bool :=
  match i with
  | .rnd _ _ => true
  | _ => false

/-- The instruction that waits for a key, the only one that can report `blocked` (R79, R155). -/
def waitsForKey (i : Instr) : Bool :=
  match i with
  | .ldVxK _ => true
  | _ => false

theorem drawsRandom_iff {i : Instr} : drawsRandom i = true ↔ ∃ x nn, i = .rnd x nn := by
  cases i <;> simp [drawsRandom]

theorem waitsForKey_iff {i : Instr} : waitsForKey i = true ↔ ∃ x, i = .ldVxK x := by
  cases i <;> simp [waitsForKey]

/-- The two model fields an instruction writes: the draw counter counts an RND and nothing else, and the outcome is
`completed` unless the instruction waits for a key (R77, R80). -/
theorem exec_modelFields {i : Instr} {s u : State} (h : exec i s = .next u) :
    u = { u with
      rndIndex := if drawsRandom i then s.rndIndex + 1 else s.rndIndex
      outcome := if waitsForKey i then u.outcome else .completed } := by
  cases i
  case ret => rw [(execRet_next h).2]; rfl
  case call nnn => rw [(execCall_next h).2]; rfl
  case ldVxK x => obtain rfl | ⟨b, rfl⟩ := execLdVxK_next h <;> rfl
  case storeRegs x => cases h; rw [storeV_frame]; rfl
  case loadRegs x => cases h; rw [loadV_frame]; rfl
  all_goals cases h; rfl

/-- LD Vx,K reports `blocked` only with no key pressed, and then nothing else has changed (R79, R155). -/
theorem execLdVxK_blocked {x : Nibble} {s u : State} (h : execLdVxK x s = .next u) (hb : u.outcome = .blocked) :
    u = setOutcome .blocked s ∧ ∀ k, keyPressed k s = false := by
  unfold execLdVxK at h
  split at h <;> cases h
  · rename_i hnone
    exact ⟨rfl, lowestKey_none.mp hnone⟩
  · cases hb

section
variable {i : Instr} {s u : State}

theorem exec_rndIndex (h : exec i s = .next u) :
    u.rndIndex = if drawsRandom i then s.rndIndex + 1 else s.rndIndex :=
  (congrArg State.rndIndex (exec_modelFields h)).trans rfl

theorem exec_completed (h : exec i s = .next u) (hi : ¬waitsForKey i = true) : u.outcome = .completed :=
  (congrArg State.outcome (exec_modelFields h)).trans (if_neg hi)

/-- An instruction that reports `blocked` is LD Vx,K with no key pressed, and it changes nothing else (R79). -/
theorem exec_blocked (h : exec i s = .next u) (hb : u.outcome = .blocked) :
    (∃ x, i = .ldVxK x) ∧ u = setOutcome .blocked s ∧ ∀ k, keyPressed k s = false := by
  by_cases hw : waitsForKey i = true
  · obtain ⟨x, rfl⟩ := waitsForKey_iff.mp hw
    exact ⟨⟨x, rfl⟩, execLdVxK_blocked h hb⟩
  · rw [exec_completed h hw] at hb
    cases hb

/-- Every instruction keeps memory in canonical form (log 19). -/
theorem exec_mem_wf (h : exec i s = .next u) (hs : Memory.wf s.mem) : Memory.wf u.mem := by
  by_cases hw : writesMemory i = true
  · obtain ⟨x, rfl | rfl⟩ := writesMemory_iff.mp hw <;> cases h
    · exact memWrite_wf _ _ (memWrite_wf _ _ (memWrite_wf _ _ hs))
    · exact storeV_wf _ _ hs
  · rwa [exec_mem h hw]

end

/-- No instruction is refused (R198). -/
theorem exec_ne_refused (i : Instr) (s : State) (q : Refusal) : exec i s ≠ .refused q := by
  obtain ⟨u, hu⟩ | ⟨hf, -⟩ | ⟨hf, -⟩ := exec_outcome i s
  · simp [hu]
  all_goals simp [hf]

/-! ### A state that waits for a key (R79) -/

/-- A blocked instruction and the tick leave the machine waiting: PC, memory and KEY are as they were. -/
theorem waiting_of_blocked {i : Instr} {s u : State} (hi : fetchDecode s = .ok i) (hu : exec i s = .next u)
    (hb : u.outcome = .blocked) : Waiting (tick u) := by
  obtain ⟨⟨x, rfl⟩, rfl, hkeys⟩ := exec_blocked hu hb
  exact ⟨⟨x, (fetchDecode_tick _).trans hi⟩, fun k => (keyPressed_tick k _).trans (hkeys k)⟩

/-! ### Errors of a step (R78, R191) -/

/-- A step at an opcode that decodes to nothing raises UnknownOpcode with that opcode. -/
theorem step_of_decode_error {s : State} {e : DecodeError} (h : decode (fetch s) = .error e) :
    step s = .fault (.unknownOpcode (fetch s)) := by
  rw [(undefined_of_decode h).1] at h
  simp only [step, fetchDecode, h, raiseDecode_unknown]

/-- The host sees an error step as the error beside the unchanged state. -/
theorem hostStep_of_fault {s : State} {f : Fault} (h : step s = .fault f) : hostStep s = (.error f, s) := by
  simp only [hostStep, h]

/-- The host sees an error exactly when the step raises it. -/
theorem hostStep_error_iff {s : State} {f : Fault} : (hostStep s).1 = .error f ↔ step s = .fault f := by
  refine ⟨fun h => ?_, fun h => by rw [hostStep_of_fault h]⟩
  unfold hostStep at h
  split at h
  · rename_i t _
    cases ho : t.outcome <;> simp [ho] at h
  · rename_i hf
    cases h
    exact hf
  · cases h

/-! ### The tick (R76) -/

@[simp] theorem tick_mem (s : State) : (tick s).mem = s.mem := rfl
@[simp] theorem tick_rndIndex (s : State) : (tick s).rndIndex = s.rndIndex := rfl
@[simp] theorem tick_outcome (s : State) : (tick s).outcome = s.outcome := rfl

theorem tick_dt_toNat (s : State) : (tick s).dt.toNat = s.dt.toNat - 1 := countDown_toNat s.dt
theorem tick_st_toNat (s : State) : (tick s).st.toNat = s.st.toNat - 1 := countDown_toNat s.st

/-- A tick fires TONE exactly when it takes the sound timer from 1. -/
theorem tick_tone_iff (s : State) : (tick s).tone = true ↔ s.st.toNat = 1 := by
  rw [tick_eq, beq_iff_eq, ← BitVec.toNat_inj]
  rfl

/-! ### The statements -/

/-- Settles O18: the instruction keeps memory canonical, the tick fires TONE only on its way to 0, and a blocked instruction
leaves the machine waiting. -/
theorem invariantKeptByStep : Obligations.InvariantKeptByStep := by
  intro s t hinv h
  obtain ⟨i, u, hi, hu, rfl⟩ := step_next h
  exact {
    memory := (tick_mem u).symm ▸ exec_mem_wf hu hinv.memory
    toneAtZero := tick_tone
    blockedWaits := fun hb => waiting_of_blocked hi hu hb }

/-- Settles O56: RND is the only instruction that moves the draw counter, and the tick does not. -/
theorem randomDrawnOnlyByRnd : Obligations.RandomDrawnOnlyByRnd := by
  intro s t h
  obtain ⟨i, u, hi, hu, rfl⟩ := step_next h
  rw [tick_rndIndex, exec_rndIndex hu]
  refine ⟨fun ⟨x, nn, hrnd⟩ => ?_, fun hnot => if_neg fun hd => ?_⟩
  · cases hi.symm.trans hrnd
    rfl
  · obtain ⟨x, nn, rfl⟩ := drawsRandom_iff.mp hd
    exact hnot x nn hi

/-- Settles O7: the step is the decoded instruction and then its end, and the only decode error is UnknownOpcode. -/
theorem stepRunsDecodedInstruction : Obligations.StepRunsDecodedInstruction := by
  refine fun s => ⟨fun i hi => ⟨fun u hu => ?_, fun f hf => ?_, exec_ne_refused i s⟩, fun e he => step_of_decode_error he⟩
  · rw [step_of_decode hi, hu, endStep_next]
  · rw [step_of_decode hi, hf, endStep_fault]

/-- Settles O13: the host is given the state back, so stepping again is the same step. -/
theorem errorStepChangesNothing : Obligations.ErrorStepChangesNothing := by
  intro s f h
  have hstep : hostStep s = (.error f, s) := hostStep_of_fault (hostStep_error_iff.mp h)
  rw [hstep]
  exact ⟨rfl, rfl, hstep⟩

/-- Settles O14: the step is the instruction and then the tick, which takes 1 from each timer, stopping at 0. -/
theorem tickEndsEveryStep : Obligations.TickEndsEveryStep := by
  intro s t h
  obtain ⟨i, u, hi, hu, rfl⟩ := step_next h
  have hdt := tick_dt_toNat u
  have hst := tick_st_toNat u
  exact ⟨i, u, hi, hu, by omega, by omega, by omega, by omega, tick_tone_iff u, rfl⟩

end Sys2Proof.Machine
end

section
/-! SUPPORT. Arithmetic, logic and register transfer (41_arithmetic_logic.md): the values of the results and flags (R90), the
two forms an instruction of the family has, one register written and a result followed by a flag (R91), each with its frame,
and the statements of the family, derived from these. -/

namespace Sys2Proof.Machine

open Sys2Proof

/-! ### Results on unbounded integers, narrowed (R90) -/

@[simp] theorem add8_toNat (a b : Byte) : (add8 a b).toNat = (a.toNat + b.toNat) % 256 :=
  BitVec.toNat_ofNat _ _

@[simp] theorem sub8_toNat (a b : Byte) : (sub8 a b).toNat = (256 + a.toNat - b.toNat) % 256 := by
  have hb := b.isLt
  rw [sub8, BitVec.toNat_ofInt]
  omega

@[simp] theorem shr8_toNat (a : Byte) : (shr8 a).toNat = a.toNat / 2 := by
  have ha := a.isLt
  rw [shr8, BitVec.toNat_ofNat]
  omega

@[simp] theorem shl8_toNat (a : Byte) : (shl8 a).toNat = a.toNat * 2 % 256 :=
  BitVec.toNat_ofNat _ _

/-! ### The bits shifted out (R100, R102) -/

theorem bit0_iff (a : Byte) : a.getLsbD 0 = true ↔ a.toNat % 2 = 1 := by
  rw [← BitVec.testBit_toNat, Nat.testBit_zero, decide_eq_true_iff]

theorem bit7_iff (a : Byte) : a.getLsbD 7 = true ↔ a.toNat / 128 = 1 := by
  have ha := a.isLt
  rw [← BitVec.testBit_toNat, Nat.testBit_eq_decide_div_mod_eq, decide_eq_true_iff]
  omega

/-! ### The two forms of an instruction (R75, R91) -/

/-- The frame of an instruction that writes nothing but V, advances and completes. -/
theorem registers_frame {n : Nat} {s t : State}
    (ht : t = { s with v := t.v, pc := BitVec.ofNat 12 (s.pc.toNat + n), outcome := .completed }) :
    OnlyRegisters s t ∧ Advanced n s t ∧ Completed t := by
  rw [ht]
  exact ⟨⟨fun _ => rfl, rfl, ⟨rfl, rfl⟩, ⟨rfl, rfl⟩, ⟨rfl, rfl⟩, rfl, ⟨rfl, rfl⟩⟩, BitVec.toNat_ofNat _ _, rfl⟩

/-- The register written holds the byte, and the others are as before. -/
theorem writeV_writesV (x : Nibble) (b : Byte) (s : State) : WritesV x b.toNat s (writeV x b s) :=
  ⟨by rw [readV_writeV, if_pos rfl], fun k hk => by rw [readV_writeV, if_neg hk]⟩

/-- The flag is written last, so VF holds it even when Vx is VF (R91). -/
theorem writeResultThenFlag_writes (x : Nibble) (b : Byte) {c : Bool} {flag : Prop} (hflag : c = true ↔ flag)
    (s : State) : WritesVThenFlag x b.toNat flag s (writeResultThenFlag x b (flagByte c) s) := by
  have hvf : readV vf (writeResultThenFlag x b (flagByte c) s) = flagByte c := by
    rw [writeResultThenFlag, readV_writeV, if_pos rfl]
  have hother : ∀ k, k ≠ vf →
      readV k (writeResultThenFlag x b (flagByte c) s) = readV k (writeV x b s) := fun k hk => by
    rw [writeResultThenFlag, readV_writeV, if_neg hk]
  obtain ⟨hx, hrest⟩ := writeV_writesV x b s
  refine ⟨fun h => ?_, fun h => ?_, fun h => ?_, fun k hkx hkvf => ?_⟩
  · rw [hvf, flagByte, if_pos (hflag.mpr h)]
  · rw [hvf, flagByte, if_neg (mt hflag.mp h)]
  · rw [hother x h, hx]
  · rw [hother k hkvf, hrest k hkx]

section
variable {i : Instr} {x : Nibble} {b : Byte} {n : Nat} {s : State}

/-- An instruction that writes one register, advances and completes. -/
theorem exec_of_writeV (h : exec i s = (s |> writeV x b |> advance 2 |> completed)) (hb : b.toNat = n) :
    ∃ t, exec i s = .next t ∧ WritesV x n s t ∧ OnlyRegisters s t ∧ Advanced 2 s t ∧ Completed t :=
  ⟨_, h, hb ▸ writeV_writesV x b s, registers_frame rfl⟩

/-- An instruction that writes a result and then the flag, advances and completes. -/
theorem exec_of_writeResultThenFlag {c : Bool} {flag : Prop}
    (h : exec i s = (s |> writeResultThenFlag x b (flagByte c) |> advance 2 |> completed)) (hb : b.toNat = n)
    (hflag : c = true ↔ flag) :
    ∃ t, exec i s = .next t ∧ WritesVThenFlag x n flag s t ∧ OnlyRegisters s t ∧ Advanced 2 s t ∧ Completed t :=
  ⟨_, h, hb ▸ writeResultThenFlag_writes x b hflag s, registers_frame rfl⟩

end

/-! ### The statements -/

/-- Settles O21: each load writes its operand to Vx. -/
theorem loadRegisterResult : Obligations.LoadRegisterResult := by
  intro x y nn s
  constructor
  · exact exec_of_writeV rfl rfl
  · exact exec_of_writeV rfl rfl

/-- Settles O22: the sum, narrowed to a byte, goes to Vx. -/
theorem addImmediateResult : Obligations.AddImmediateResult :=
  fun x nn s => exec_of_writeV rfl (add8_toNat (readV x s) nn)

/-- Settles O23: the bits combined go to Vx, and no flag follows. -/
theorem bitwiseResult : Obligations.BitwiseResult := by
  intro x y s
  refine ⟨?_, ?_, ?_⟩
  · exact exec_of_writeV rfl (BitVec.toNat_or (readV x s) (readV y s))
  · exact exec_of_writeV rfl (BitVec.toNat_and (readV x s) (readV y s))
  · exact exec_of_writeV rfl (BitVec.toNat_xor (readV x s) (readV y s))

/-- Settles O24: the sum, narrowed to a byte, and then the carry. -/
theorem addRegistersResult : Obligations.AddRegistersResult :=
  fun x y s => exec_of_writeResultThenFlag rfl (add8_toNat (readV x s) (readV y s)) decide_eq_true_iff

/-- Settles O25: the difference, narrowed to a byte, and then the strict comparison. -/
theorem subtractResult : Obligations.SubtractResult := by
  intro x y s
  constructor
  · exact exec_of_writeResultThenFlag rfl (sub8_toNat (readV x s) (readV y s)) decide_eq_true_iff
  · exact exec_of_writeResultThenFlag rfl (sub8_toNat (readV y s) (readV x s)) decide_eq_true_iff

/-- Settles O26: the shifted value, and then the bit of the old one that was shifted out. -/
theorem shiftResult : Obligations.ShiftResult := by
  intro x y s
  constructor
  · exact exec_of_writeResultThenFlag rfl (shr8_toNat (readV x s)) (bit0_iff (readV x s))
  · exact exec_of_writeResultThenFlag rfl (shl8_toNat (readV x s)) (bit7_iff (readV x s))

end Sys2Proof.Machine
end

section
/-! SUPPORT. Control transfer (42_control_flow.md): an instruction that replaces PC and nothing else, with the skips (R75) as
its case, what CALL and RET answer when they raise no error (R111, R113), and the statements of the family, derived from
these. -/

namespace Sys2Proof.Machine

open Sys2Proof

/-! ### Frames (R110) -/

/-- The frame of an instruction that writes nothing but PC and completes. -/
theorem pc_frame {s t : State} (ht : t = { s with pc := t.pc, outcome := .completed }) : OnlyPc s t ∧ Completed t := by
  rw [ht]
  exact ⟨⟨fun _ => rfl, fun _ => rfl, rfl, ⟨rfl, rfl⟩, ⟨rfl, rfl⟩, ⟨rfl, rfl⟩, rfl, ⟨rfl, rfl⟩⟩, rfl⟩

/-- The frame of an instruction that writes nothing but the call stack and PC and completes. -/
theorem stack_frame {s t : State}
    (ht : t = { s with stack := t.stack, sp := t.sp, pc := t.pc, outcome := .completed }) :
    SameV s t ∧ SameMem s t ∧ SameI s t ∧ SameTimers s t ∧ SameDisplay s t ∧ SameKeys s t ∧ SameModel s t ∧
      Completed t := by
  rw [ht]
  exact ⟨fun _ => rfl, fun _ => rfl, rfl, ⟨rfl, rfl⟩, ⟨rfl, rfl⟩, rfl, ⟨rfl, rfl⟩, rfl⟩

/-! ### Jumps and skips (R75) -/

section
variable {i : Instr} {s : State}

/-- An instruction that replaces PC and completes. -/
theorem exec_of_writePc {a : Addr} (h : exec i s = (s |> writePc a |> completed)) :
    ∃ t, exec i s = .next t ∧ t.pc = a ∧ OnlyPc s t ∧ Completed t :=
  ⟨_, h, rfl, pc_frame rfl⟩

/-- An instruction that skips on a condition and completes: a replacement of PC by PC + 4 or PC + 2. -/
theorem exec_of_skipIf {c : Bool} {cond : Prop} (h : exec i s = (s |> skipIf c |> completed)) (hc : c = true ↔ cond) :
    ∃ t, exec i s = .next t ∧ Skipped cond s t ∧ OnlyPc s t ∧ Completed t := by
  obtain ⟨t, ht, hpc, hframe⟩ := exec_of_writePc h
  have hadv : Advanced (if c then 4 else 2) s t := by rw [Advanced, hpc, BitVec.toNat_ofNat]
  refine ⟨t, ht, ⟨fun hcond => ?_, fun hcond => ?_⟩, hframe⟩
  · rwa [if_pos (hc.mpr hcond)] at hadv
  · rwa [if_neg (mt hc.mp hcond)] at hadv

end

/-! ### CALL and RET when they raise no error (R111, R113) -/

/-- CALL with room on the stack: the un-advanced PC is pushed, PC is NNN, and nothing else differs but the outcome. -/
theorem exec_call_of_room (nnn : Addr) {s : State} (hroom : s.sp.val < 16) :
    ∃ t, exec (.call nnn) s = .next t ∧ t.sp.val = s.sp.val + 1 ∧ t.stack = s.stack.set s.sp.val s.pc hroom ∧
      t = { s with stack := t.stack, sp := t.sp, pc := nnn, outcome := .completed } := by
  obtain ⟨p, hp⟩ := Option.ne_none_iff_exists'.mp (mt pushPc_none.mp (Nat.ne_of_lt hroom))
  obtain ⟨_, hsp, hstack, heq⟩ := pushPc_some hp
  refine ⟨p |> writePc nnn |> setOutcome .completed, ?_, hsp, hstack, ?_⟩
  · simp only [exec, execCall, hp, completed_eq]
  · rw [heq]; rfl

/-- RET with a live entry: PC is two bytes after that entry, SP is one less, and nothing else differs but the outcome. -/
theorem exec_ret_of_live {s : State} (hlive : 0 < s.sp.val) (hlt : s.sp.val - 1 < 16) :
    ∃ t, exec .ret s = .next t ∧ t.sp.val + 1 = s.sp.val ∧
      t.pc.toNat = ((s.stack[s.sp.val - 1]).toNat + 2) % 4096 ∧
      t = { s with sp := t.sp, pc := t.pc, outcome := .completed } := by
  obtain ⟨p, hp⟩ := Option.ne_none_iff_exists'.mp (mt popPc_none.mp (Nat.ne_of_gt hlive))
  obtain ⟨_, -, -, hpc, -⟩ := popPc_some hp
  have ht : exec .ret s = .next (p |> advance 2 |> setOutcome .completed) := by
    simp only [exec, execRet, hp, completed_eq]
  obtain ⟨hsp, heq⟩ := execRet_next ht
  refine ⟨_, ht, hsp, ?_, heq⟩
  rw [setOutcome_pc, advance_pc, hpc, BitVec.toNat_ofNat]

/-! ### The statements -/

/-- Settles O30: the entry the RET pops is the one the CALL pushed, its own address. -/
theorem callThenReturnContinues : Obligations.CallThenReturnContinues := by
  intro nnn s hroom
  obtain ⟨t, ht, htsp, htstack, -⟩ := exec_call_of_room nnn hroom
  refine ⟨t, ht, fun u hstack hsp => ?_⟩
  have husp : u.sp.val = s.sp.val + 1 := hsp ▸ htsp
  obtain ⟨w, hw, hwsp, hwpc, -⟩ := exec_ret_of_live (s := u) (by omega) (by omega)
  have hentry : u.stack[u.sp.val - 1] = s.pc := by simp [hstack, htstack, husp]
  refine ⟨w, hw, Fin.ext (by omega), ?_⟩
  rw [Advanced, hwpc, hentry]

/-- Settles O27: 0x1000 + NNN is the encoding of JP NNN, and the instruction is a replacement of PC. -/
theorem jumpReplacesPc : Obligations.JumpReplacesPc := by
  refine fun nnn s => ⟨decode_of_encode ?_, exec_of_writePc rfl⟩
  apply BitVec.eq_of_toNat_eq
  have hnnn := nnn.isLt
  rw [encode, formatNNN_toNat, BitVec.toNat_ofNat, BitVec.toNat_ofNat]
  omega

/-- Settles O28: the push of PC and then the jump, or on a full stack no push. -/
theorem callPushesItsOwnAddress : Obligations.CallPushesItsOwnAddress := by
  refine fun nnn s => ⟨fun hroom => ?_, fun hfull => ?_⟩
  · obtain ⟨t, ht, hsp, hstack, heq⟩ := exec_call_of_room nnn hroom
    have hpc : t.pc = nnn := (congrArg State.pc heq).trans rfl
    refine ⟨t, ht, hpc, hsp, fun k hk => ?_, stack_frame (hpc ▸ heq)⟩
    simp only [hstack, Vector.getElem_set, eq_comm (a := s.sp.val)]
  · simp only [exec, execCall, pushPc_none.mpr hfull, raise_eq]

/-- Settles O29: the pop and then the advance; the stack is not among what differs. -/
theorem returnPopsAndAdvances : Obligations.ReturnPopsAndAdvances := by
  intro s hlive hlt
  obtain ⟨t, ht, hsp, hpc, heq⟩ := exec_ret_of_live hlive hlt
  have hstack : t.stack = s.stack := (congrArg State.stack heq).trans rfl
  exact ⟨t, ht, hpc, hsp, hstack, stack_frame (hstack ▸ heq)⟩

/-- Settles O31: each is a skip on its comparison of Vx with NN. -/
theorem skipOnByte : Obligations.SkipOnByte := by
  intro x nn s
  constructor
  · exact exec_of_skipIf rfl beq_iff_eq
  · exact exec_of_skipIf rfl bne_iff_ne

/-- Settles O32: each is a skip on its comparison of Vx with Vy. -/
theorem skipOnRegister : Obligations.SkipOnRegister := by
  intro x y s
  constructor
  · exact exec_of_skipIf rfl beq_iff_eq
  · exact exec_of_skipIf rfl bne_iff_ne

/-- Settles O33: a replacement of PC by the sum, narrowed to an address. -/
theorem computedJump : Obligations.ComputedJump := by
  intro nnn s
  obtain ⟨t, ht, hpc, hframe⟩ := exec_of_writePc (i := .jpV0 nnn) (s := s) rfl
  exact ⟨t, ht, by rw [hpc, jumpTarget, BitVec.toNat_ofNat], hframe⟩

end Sys2Proof.Machine
end

section
/-! SUPPORT. Index register and memory transfers (43_memory_index.md): the values of I and of the digits as numbers, the frame
of an instruction of the family, what the two transfers and LD B,Vx leave in memory and in the registers, and the statements
of the family, derived from these. -/

namespace Sys2Proof.Machine

open Sys2Proof

/-! ### Addresses and digits, narrowed (R131 to R135) -/

@[simp] theorem addIndex_toNat (a : Addr) (b : Byte) : (addIndex a b).toNat = (a.toNat + b.toNat) % 4096 :=
  BitVec.toNat_ofNat _ _

@[simp] theorem indexPast_toNat (n : Nat) (s : State) : (indexPast n s).toNat = (s.i.toNat + n) % 4096 :=
  BitVec.toNat_ofNat _ _

/-- Every glyph address is an address: 255 * 5 is below 4096. -/
@[simp] theorem glyphAddr_toNat (b : Byte) : (glyphAddr b).toNat = b.toNat * 5 := by
  have hb := b.isLt
  rw [glyphAddr, Config.glyphLen, BitVec.toNat_ofNat]
  omega

@[simp] theorem hundreds_toNat (b : Byte) : (hundreds b).toNat = b.toNat / 100 := by
  have hb := b.isLt
  rw [hundreds, BitVec.toNat_ofNat]
  omega

@[simp] theorem tens_toNat (b : Byte) : (tens b).toNat = b.toNat / 10 % 10 := by
  rw [tens, BitVec.toNat_ofNat]
  omega

@[simp] theorem units_toNat (b : Byte) : (units b).toNat = b.toNat % 10 := by
  rw [units, BitVec.toNat_ofNat]
  omega

/-- The address of the k-th byte of a transfer, counted from I modulo 4096. -/
theorem memAddr_indexed (k : Nibble) (s : State) : memAddr (indexed k.toNat s) = s.i + k.setWidth 12 := by
  rw [indexed, memAddr_toNat_add, BitVec.ofNat_toNat]

/-- The bytes of a transfer at different offsets below 16 are different bytes (R33). -/
theorem memAddr_indexed_ne {j k : Nat} (hjk : j < k) (hk : k < 16) (s : State) :
    memAddr (indexed j s) ≠ memAddr (indexed k s) :=
  memAddr_inj (Nat.add_lt_add_left hjk _) (by unfold indexed; omega)

/-- The byte at a reduced address is what MemRead reads (R32). -/
theorem byteAt_memAddr (n : Nat) (s : State) : byteAt (memAddr n) s = memRead n s := by
  rw [byteAt, memRead, memAddr_toNat, memRead]

/-! ### Frames (R129) -/

/-- The frame of an instruction that writes nothing but memory, V and I, advances and completes. -/
theorem transfer_frame {n : Nat} {s t : State} {m : Memory} {v : Vector Byte 16} {a : Addr}
    (ht : t = { s with mem := m, v := v, i := a, pc := BitVec.ofNat 12 (s.pc.toNat + n), outcome := .completed }) :
    SameStack s t ∧ SameTimers s t ∧ SameDisplay s t ∧ SameKeys s t ∧ SameModel s t ∧ Advanced n s t ∧ Completed t := by
  rw [ht]
  exact ⟨⟨rfl, rfl⟩, ⟨rfl, rfl⟩, ⟨rfl, rfl⟩, rfl, ⟨rfl, rfl⟩, BitVec.toNat_ofNat _ _, rfl⟩

/-- An instruction that writes I, advances and completes. -/
theorem exec_of_writeI {i : Instr} {s : State} {a : Addr} (h : exec i s = (s |> writeI a |> advance 2 |> completed)) :
    ∃ t, exec i s = .next t ∧ t.i = a ∧ OnlyIndex s t ∧ Advanced 2 s t ∧ Completed t := by
  refine ⟨_, h, rfl, ?_⟩
  obtain ⟨hstack, htimers, hdisplay, hkeys, hmodel, hend⟩ := transfer_frame (s := s) rfl
  exact ⟨⟨fun _ => rfl, fun _ => rfl, hstack, htimers, hdisplay, hkeys, hmodel⟩, hend⟩

/-! ### The transfers (R133 to R135) -/

/-- A byte after LD B,Vx: a digit at each of its three addresses, every other byte as before. -/
theorem byteAt_of_execLdB {x : Nibble} {s u : State} (h : execLdB x s = .next u) (a : Addr) :
    byteAt a u =
      if a = memAddr (indexed 2 s) then units (readV x s)
      else if a = memAddr (indexed 1 s) then tens (readV x s)
      else if a = memAddr (indexed 0 s) then hundreds (readV x s)
      else byteAt a s := by
  cases h
  simp only [← byteAt_memWrite]
  rfl

/-- The state LD [I],Vx answers with: I is past the bytes stored, and nothing else differs but memory, PC and the outcome. -/
theorem execStoreRegs_next {x : Nibble} {s u : State} (h : execStoreRegs x s = .next u) :
    u = { s with
      mem := u.mem
      i := indexPast (x.toNat + 1) s
      pc := BitVec.ofNat 12 (s.pc.toNat + 2)
      outcome := .completed } := by
  cases h
  rw [storeV_frame]
  rfl

/-- The state LD Vx,[I] answers with: I is past the bytes read, and nothing else differs but V, PC and the outcome. -/
theorem execLoadRegs_next {x : Nibble} {s u : State} (h : execLoadRegs x s = .next u) :
    u = { s with
      v := u.v
      i := indexPast (x.toNat + 1) s
      pc := BitVec.ofNat 12 (s.pc.toNat + 2)
      outcome := .completed } := by
  cases h
  rw [loadV_frame]
  rfl

/-- A register after LD Vx,[I]: up to Vx the byte at its offset from I, above Vx as before. -/
theorem readV_of_execLoadRegs {x : Nibble} {s u : State} (h : execLoadRegs x s = .next u) (k : Nibble) :
    readV k u = if k.toNat ≤ x.toNat then byteAt (memAddr (indexed k.toNat s)) s else readV k s := by
  have hread := loadV_read (x.toNat + 1) x.isLt s k
  simp only [Nat.lt_succ_iff] at hread
  cases h
  rw [byteAt_memAddr]
  exact hread

/-! ### The statements -/

/-- Settles O34: each is a replacement of I. -/
theorem loadIndexResult : Obligations.LoadIndexResult := by
  intro nnn x s
  constructor
  · exact exec_of_writeI rfl
  · obtain ⟨t, ht, hi, hframe⟩ := exec_of_writeI (i := .ldF x) (s := s) rfl
    exact ⟨t, ht, by rw [hi, glyphAddr_toNat], hframe⟩

/-- Settles O35: the sum, narrowed to an address, goes to I, and then the flag goes to VF. -/
theorem addIndexResult : Obligations.AddIndexResult := by
  intro x s
  obtain ⟨t, ht⟩ : ∃ t, exec (.addI x) s = .next t := ⟨_, rfl⟩
  have hflag : readV vf t = indexCarryFlag s.i (readV x s) := by
    cases ht
    exact (readV_writeV _ _ _ _).trans (if_pos rfl)
  refine ⟨t, ht, ?_, fun h => ?_, fun h => ?_, fun k hk => ?_, exec_byteAt ht Bool.false_ne_true, ?_⟩
  · cases ht
    exact addIndex_toNat _ _
  · rw [hflag, indexCarryFlag, flagByte, if_pos (decide_eq_true h)]
  · rw [hflag, indexCarryFlag, flagByte, if_neg (mt of_decide_eq_true h)]
  · exact exec_readV ht (mt beq_iff_eq.mp hk)
  · cases ht
    exact transfer_frame rfl

/-- Settles O36: the three addresses differ, so each of them holds its digit after the last store. -/
theorem storeBcdResult : Obligations.StoreBcdResult := by
  intro x s
  obtain ⟨t, ht⟩ : ∃ t, exec (.ldB x) s = .next t := ⟨_, rfl⟩
  have hbyte := byteAt_of_execLdB ht
  have h01 := memAddr_indexed_ne (j := 0) (k := 1) (by decide) (by decide) s
  have h02 := memAddr_indexed_ne (j := 0) (k := 2) (by decide) (by decide) s
  have h12 := memAddr_indexed_ne (j := 1) (k := 2) (by decide) (by decide) s
  refine ⟨t, ht, ?_, ?_, ?_, fun a h0 h1 h2 => ?_, fun _ => exec_readV ht Bool.false_ne_true,
    exec_i ht Bool.false_ne_true, ?_⟩
  · rw [hbyte, if_neg h02, if_neg h01, if_pos rfl, hundreds_toNat]
  · rw [hbyte, if_neg h12, if_pos rfl, tens_toNat]
  · rw [hbyte, if_pos rfl, units_toNat]
  · rw [hbyte, if_neg h2, if_neg h1, if_neg h0]
  · cases ht
    exact transfer_frame rfl

/-- Settles O37: the bytes that change are those at an offset up to X from I, and each holds its register. -/
theorem storeRegistersResult : Obligations.StoreRegistersResult := by
  intro x s
  obtain ⟨t, ht⟩ : ∃ t, exec (.storeRegs x) s = .next t := ⟨_, rfl⟩
  have hnext := execStoreRegs_next ht
  refine ⟨t, ht, fun k hk => ?_, fun a ha => ?_, ?_, fun _ => exec_readV ht Bool.false_ne_true, transfer_frame hnext⟩
  · rw [memAddr_indexed, execStoreRegs_byteAt_index ht k hk]
  · by_contra hne
    obtain ⟨k, hk, hak⟩ := execStoreRegs_byteAt ht hne
    have hoff : (BitVec.ofNat 4 k).toNat = k := Nat.mod_eq_of_lt (Nat.lt_of_le_of_lt hk x.isLt)
    exact ha (BitVec.ofNat 4 k) (hoff.symm ▸ hk) (hoff.symm ▸ hak)
  · rw [hnext]
    exact indexPast_toNat _ _

/-- Settles O38: a register is loaded exactly when its index is up to X, and the instruction writes no memory. -/
theorem loadRegistersResult : Obligations.LoadRegistersResult := by
  intro x s
  obtain ⟨t, ht⟩ : ∃ t, exec (.loadRegs x) s = .next t := ⟨_, rfl⟩
  have hnext := execLoadRegs_next ht
  refine ⟨t, ht, fun k hk => ?_, fun k hk => ?_, ?_, exec_byteAt ht Bool.false_ne_true, transfer_frame hnext⟩
  · rw [readV_of_execLoadRegs ht, if_pos hk]
  · rw [readV_of_execLoadRegs ht, if_neg (Nat.not_le.mpr hk)]
  · rw [hnext]
    exact indexPast_toNat _ _

/-- Settles O39: with I set back the load reads the bytes the store wrote, one per register up to Vx, and no
instruction of the three writes a register above Vx. -/
theorem storeLoadRoundTrip : Obligations.StoreLoadRoundTrip := by
  intro x s
  obtain ⟨t, ht, hstored, -, hti, htv, -⟩ := storeRegistersResult x s
  obtain ⟨u, hu, hui, ⟨huv, humem, -⟩, -⟩ := (loadIndexResult s.i x t).1
  obtain ⟨w, hw, hloaded, habove, hwi, -⟩ := loadRegistersResult x u
  obtain ⟨w', hw', -, -, hwi', -⟩ := loadRegistersResult x t
  refine ⟨t, u, w, w', ht, hu, hw, fun k => ?_, by rw [hwi, hui, Nat.add_assoc], hw', by omega⟩
  rcases le_or_gt k.toNat x.toNat with hk | hk
  · have hindex : indexed k.toNat u = indexed k.toNat s := by rw [indexed, indexed, hui]
    rw [hloaded k hk, hindex, humem, hstored k hk]
  · rw [habove k hk, huv, htv]

end Sys2Proof.Machine
end

section
/-! SUPPORT. Timers, keys and random numbers (44_timers_keys_random.md): the key an instruction selects (R149), the frame of
an instruction that writes a timer, what LD Vx,K answers with and without a key pressed (R155), the step of a machine that
waits for a key (R79), the state RND answers with (R156), and the statements of the family, derived from these. -/

namespace Sys2Proof.Machine

open Sys2Proof

/-! ### Timers (R151, R152) -/

/-- The frame of an instruction that writes nothing but the timers, advances and completes. -/
theorem timers_frame {n : Nat} {s t : State} {d e : Byte}
    (ht : t = { s with dt := d, st := e, pc := BitVec.ofNat 12 (s.pc.toNat + n), outcome := .completed }) :
    SameV s t ∧ SameI s t ∧ SameMem s t ∧ SameStack s t ∧ SameDisplay s t ∧ SameKeys s t ∧ SameModel s t ∧
      Advanced n s t ∧ Completed t := by
  rw [ht]
  exact ⟨fun _ => rfl, rfl, fun _ => rfl, ⟨rfl, rfl⟩, ⟨rfl, rfl⟩, rfl, ⟨rfl, rfl⟩, BitVec.toNat_ofNat _ _, rfl⟩

/-! ### Keys (R149, R155) -/

@[simp] theorem keySelect_toNat (b : Byte) : (keySelect b).toNat = b.toNat % 16 := by
  rw [keySelect, BitVec.toNat_ofNat]
  omega

/-- With no key pressed LD Vx,K changes nothing but the outcome. -/
theorem exec_ldVxK_of_noKey (x : Nibble) {s : State} (h : ∀ k, keyPressed k s = false) :
    exec (.ldVxK x) s = .next (setOutcome .blocked s) := by
  simp only [exec, execLdVxK, lowestKey_none.mpr h, blocked_eq]

/-- With a key pressed LD Vx,K is a load of the index of the key found. -/
theorem exec_ldVxK_of_lowestKey (x : Nibble) {k : Nibble} {s : State} (h : lowestKey s = some k) :
    exec (.ldVxK x) s = (s |> writeV x (k.setWidth 8) |> advance 2 |> completed) := by
  simp only [exec, execLdVxK, h]

/-- Some key is found when one is pressed. -/
theorem lowestKey_of_pressed {s : State} (h : ∃ k, keyPressed k s = true) : ∃ k, lowestKey s = some k := by
  obtain ⟨j, hj⟩ := h
  refine Option.ne_none_iff_exists'.mp fun hnone => ?_
  exact Bool.false_ne_true ((lowestKey_none.mp hnone j).symm.trans hj)

/-! ### Waiting for a key (R79) -/

/-- A step of a waiting machine: the instruction is blocked and only the tick follows, which leaves it waiting. -/
theorem step_of_waiting {s : State} (h : Waiting s) :
    step s = .next (tick (setOutcome .blocked s)) ∧ Waiting (tick (setOutcome .blocked s)) := by
  obtain ⟨⟨x, hx⟩, hkeys⟩ := h
  have hexec := exec_ldVxK_of_noKey x hkeys
  exact ⟨(step_of_decode hx).trans (congrArg endStep hexec), waiting_of_blocked hx hexec rfl⟩

/-! ### The random byte (R156) -/

/-- RND is a load of the masked byte, from the state in which the byte has been drawn. -/
theorem exec_rnd_from_consumeRnd (x : Nibble) (nn : Byte) (s : State) :
    ∃ t, exec (.rnd x nn) s = .next t ∧ WritesV x (rndByte s &&& nn).toNat (consumeRnd s) t ∧
      OnlyRegisters (consumeRnd s) t ∧ Advanced 2 (consumeRnd s) t ∧ Completed t :=
  ⟨_, rfl, writeV_writesV x _ (consumeRnd s), registers_frame rfl⟩

/-! ### The statements -/

/-- Settles O42: a key is found, it is the lowest pressed, and the instruction is a load of its index. -/
theorem waitKeyTakesLowest : Obligations.WaitKeyTakesLowest := by
  intro x s hpressed
  obtain ⟨k, hk⟩ := lowestKey_of_pressed hpressed
  obtain ⟨hdown, hlowest⟩ := lowestKey_some hk
  obtain ⟨t, ht, hresult⟩ :=
    exec_of_writeV (exec_ldVxK_of_lowestKey x hk) (BitVec.toNat_setWidth_of_le (by decide))
  exact ⟨t, k, ht, hdown, hlowest, hresult⟩

/-- Settles O44, by induction on the number of steps: each step ticks and leaves the machine waiting. -/
theorem blockedUntilKey : Obligations.BlockedUntilKey := by
  intro n
  induction n with
  | zero => exact fun s h => ⟨s, rfl, rfl, fun _ => rfl, fun _ => rfl, rfl, rfl, h⟩
  | succ n ih =>
    intro s h
    obtain ⟨hstep, hwaiting⟩ := step_of_waiting h
    obtain ⟨t, ht, hpc, hv, hmem, hdt, hst, hend⟩ := ih _ hwaiting
    rw [tick_dt_toNat, setOutcome_dt] at hdt
    rw [tick_st_toNat, setOutcome_st] at hst
    exact ⟨t, by rw [steps, hstep]; exact ht, hpc, hv, hmem, by omega, by omega, hend⟩

/-- Settles O40: the first is a load of Vx, the other two write one timer each. -/
theorem timerTransferResult : Obligations.TimerTransferResult := by
  intro x s
  refine ⟨?_, ?_, ?_⟩
  · exact exec_of_writeV rfl rfl
  · exact ⟨_, rfl, rfl, rfl, timers_frame rfl⟩
  · exact ⟨_, rfl, rfl, rfl, timers_frame rfl⟩

/-- Settles O41: each is a skip on the state of the key that Vx selects. -/
theorem skipOnKey : Obligations.SkipOnKey := by
  intro x k s hk
  obtain rfl : k = keySelect (readV x s) := BitVec.eq_of_toNat_eq (hk.trans (keySelect_toNat _).symm)
  constructor
  · exact exec_of_skipIf rfl Iff.rfl
  · exact exec_of_skipIf rfl (iff_of_eq (Bool.not_eq_true' _))

/-- Settles O43: the outcome is all that the blocked instruction writes. -/
theorem waitKeyBlocks : Obligations.WaitKeyBlocks := by
  intro x s hkeys
  exact ⟨_, exec_ldVxK_of_noKey x hkeys, rfl, rfl, fun _ => rfl, fun _ => rfl, rfl, ⟨rfl, rfl⟩, ⟨rfl, rfl⟩, ⟨rfl, rfl⟩, rfl,
    ⟨rfl, rfl⟩⟩

/-- Settles O45: the draw changes only the counter, so the frame of the load is the frame of the instruction. -/
theorem randomIsMasked : Obligations.RandomIsMasked := by
  intro x nn s
  obtain ⟨t, ht, ⟨hx, hothers⟩, ⟨hmem, hi, hstack, htimers, hdisplay, hkeys, hrnd, htone⟩, hend⟩ :=
    exec_rnd_from_consumeRnd x nn s
  have hmasked : readV x t = rndByte s &&& nn := BitVec.eq_of_toNat_eq hx
  refine ⟨t, ht, ⟨by rw [hmasked, BitVec.toNat_and], hothers⟩, fun j hj => ?_, hrnd, htone, hmem, hi, hstack, htimers,
    hdisplay, hkeys, hend⟩
  rw [hmasked, BitVec.getLsbD_and, hj, Bool.and_false]

end Sys2Proof.Machine
end

section
/-! SUPPORT. The display (45_display.md): the frame of an instruction that writes the display and V, the pixels under a
sprite and what the drawing loop does to them (R173), what DRW answers with, and the statements of the family, derived from
these. -/

namespace Sys2Proof.Machine

open Sys2Proof

/-! ### Frames (R172, R173) -/

/-- The frame of an instruction that writes nothing but the display and V, advances and completes. -/
theorem display_frame {n : Nat} {s t : State} {f : FrameBuffer} {d : Bool} {v : Vector Byte 16}
    (ht : t = { s with fb := f, drawFlag := d, v := v, pc := BitVec.ofNat 12 (s.pc.toNat + n), outcome := .completed }) :
    SameMem s t ∧ SameI s t ∧ SameStack s t ∧ SameTimers s t ∧ SameKeys s t ∧ SameModel s t ∧ Advanced n s t ∧
      Completed t := by
  rw [ht]
  exact ⟨fun _ => rfl, rfl, ⟨rfl, rfl⟩, ⟨rfl, rfl⟩, rfl, ⟨rfl, rfl⟩, BitVec.toNat_ofNat _ _, rfl⟩

/-! ### The pixels under a sprite (R173) -/

/-- The grid is read modulo its size (D7). -/
@[simp] theorem get_mod (f : FrameBuffer) (x y : Nat) : FrameBuffer.get f (x % 64) (y % 32) = FrameBuffer.get f x y := by
  simp only [FrameBuffer.get, Nat.mod_mod]

/-- The sprite depends on the state only through I and memory. -/
theorem underSprite_congr {s u : State} (hmem : SameMem s u) (hi : SameI s u) (x0 y0 n px py : Nat) :
    UnderSprite u x0 y0 n px py ↔ UnderSprite s x0 y0 n px py := by
  have hread : ∀ a, memRead a u = memRead a s := fun a => by
    rw [← byteAt_memAddr, hmem, byteAt_memAddr]
  simp only [UnderSprite, hread, show u.i = s.i from hi]

/-- A pixel of the grid is under the sprite as the drawing loop meets it: by rows, then by columns. -/
theorem underSprite_iff_rows (s : State) (x0 y0 n : Nat) {px py : Nat} (hx : px < 64) (hy : py < 32) :
    UnderSprite s x0 y0 n px py ↔ ∃ r < n, py % 32 = (y0 + r) % 32 ∧
      ∃ c < (8 : Nat), (memRead (indexed r s) s).getLsbD (7 - c) = true ∧ px % 64 = (x0 + c) % 64 := by
  rw [Nat.mod_eq_of_lt hx, Nat.mod_eq_of_lt hy]
  constructor
  · rintro ⟨r, c, hr, hc, hbit, hpx, hpy⟩
    exact ⟨r, hr, hpy, c, hc, hbit, hpx⟩
  · rintro ⟨r, hr, hpy, c, hc, hbit, hpx⟩
    exact ⟨r, c, hr, hc, hbit, hpx, hpy⟩

section
variable (x0 y0 : Nat) {n : Nat} (hn : n ≤ 32) (s : State)
include hn

/-- The drawing loop flips exactly the pixels under the sprite. -/
theorem get_plotSprite {px py : Nat} (hx : px < 64) (hy : py < 32) [Decidable (UnderSprite s x0 y0 n px py)] :
    FrameBuffer.get (plotSprite x0 y0 n s).1 px py =
      (FrameBuffer.get s.fb px py ^^ decide (UnderSprite s x0 y0 n px py)) := by
  rw [(plotSprite_spec x0 y0 n hn s).1, decide_eq_decide.mpr (underSprite_iff_rows s x0 y0 n hx hy)]

/-- The drawing loop notes a collision exactly when a pixel under the sprite was set. -/
theorem plotSprite_hit_iff : (plotSprite x0 y0 n s).2 = true ↔
    ∃ px py, px < 64 ∧ py < 32 ∧ UnderSprite s x0 y0 n px py ∧ FrameBuffer.get s.fb px py = true := by
  rw [(plotSprite_spec x0 y0 n hn s).2]
  constructor
  · rintro ⟨r, hr, c, hc, hbit, hset⟩
    exact ⟨(x0 + c) % 64, (y0 + r) % 32, Nat.mod_lt _ (by decide), Nat.mod_lt _ (by decide),
      ⟨r, c, hr, hc, hbit, rfl, rfl⟩, (get_mod _ _ _).trans hset⟩
  · rintro ⟨_, _, -, -, ⟨r, c, hr, hc, hbit, rfl, rfl⟩, hset⟩
    exact ⟨r, hr, c, hc, hbit, (get_mod _ _ _).symm.trans hset⟩

end

/-! ### What DRW answers with (R173) -/

theorem flagByte_eq_one_iff {c : Bool} : flagByte c = 1#8 ↔ c = true := by
  cases c <;> decide

theorem flagByte_of_not {c : Bool} (h : ¬c = true) : flagByte c = 0#8 := if_neg h

/-- DRW: the pixels under the sprite are flipped, VF tells whether one of them was set, and the frame. -/
theorem exec_drw_next (x y n : Nibble) (s : State) :
    ∃ t hit, exec (.drw x y n) s = .next t ∧
      (∀ px py, px < 64 → py < 32 → ∀ [Decidable (UnderSprite s (readV x s).toNat (readV y s).toNat n.toNat px py)],
        FrameBuffer.get t.fb px py = (FrameBuffer.get s.fb px py ^^
          decide (UnderSprite s (readV x s).toNat (readV y s).toNat n.toNat px py))) ∧
      readV vf t = flagByte hit ∧
      (hit = true ↔ ∃ px py, px < 64 ∧ py < 32 ∧
        UnderSprite s (readV x s).toNat (readV y s).toNat n.toNat px py ∧ FrameBuffer.get s.fb px py = true) ∧
      t.drawFlag = true ∧ (∀ k, k ≠ vf → readV k t = readV k s) ∧ SameMem s t ∧ SameI s t ∧ SameStack s t ∧
      SameTimers s t ∧ SameKeys s t ∧ SameModel s t ∧ Advanced 2 s t ∧ Completed t := by
  have hn : n.toNat ≤ 32 := Nat.le_trans (Nat.le_of_lt n.isLt) (by decide)
  exact ⟨_, _, rfl, fun px py hx hy => get_plotSprite _ _ hn s hx hy, (readV_writeV vf vf _ _).trans (if_pos rfl),
    plotSprite_hit_iff _ _ hn s, rfl, fun k hk => (readV_writeV k vf _ _).trans (if_neg hk), display_frame rfl⟩

/-! ### The statements -/

/-- Settles O47: the pixel is flipped or not as it is under the sprite or not, and VF is the collision. -/
theorem drawFlipsExactlyTheSprite : Obligations.DrawFlipsExactlyTheSprite := by
  classical
  intro x y n s
  obtain ⟨t, hit, ht, hpixel, hvf, hhit, hframe⟩ := exec_drw_next x y n s
  refine ⟨t, ht, fun px py hx hy => ⟨fun hunder => ?_, fun hunder => ?_⟩, fun hset => ?_, fun hset => ?_, hframe⟩
  · rw [hpixel px py hx hy, decide_eq_true hunder, Bool.xor_true]
  · rw [hpixel px py hx hy, decide_eq_false hunder, Bool.xor_false]
  · rw [hvf, flagByte_eq_one_iff, hhit]
    exact hset
  · rw [hvf, flagByte_of_not (mt hhit.mp hset)]

/-- Settles O48: the second draw has the same sprite under every pixel, so it flips back what the first one flipped, and it
meets a set pixel exactly where the first one met an unset one. -/
theorem drawTwiceRestores : Obligations.DrawTwiceRestores := by
  classical
  intro x y n s
  obtain ⟨t, -, ht, hfirst, -⟩ := exec_drw_next x y n s
  refine ⟨t, ht, fun u hfb hmem hi hx hy => ?_⟩
  obtain ⟨w, hit, hw, hsecond, hvf, hhit, -⟩ := exec_drw_next x y n u
  simp only [hx, hy, underSprite_congr hmem hi, hfb] at hsecond hhit
  refine ⟨w, hw, frameBuffer_ext fun px py hpx hpy => ?_, ?_⟩
  · rw [hsecond px py hpx hpy, hfirst px py hpx hpy, Bool.xor_assoc, Bool.xor_self, Bool.xor_false]
  · rw [hvf, flagByte_eq_one_iff, hhit]
    refine exists_congr fun px => exists_congr fun py => and_congr_right fun hpx => and_congr_right fun hpy =>
      and_congr_right fun hunder => ?_
    rw [hfirst px py hpx hpy, decide_eq_true hunder, Bool.xor_true, Bool.not_eq_true']

/-- Settles O46: no pixel of the buffer CLS writes is set. -/
theorem clearScreenResult : Obligations.ClearScreenResult :=
  fun _ => ⟨_, rfl, fun px py _ _ => get_clear px py, rfl, fun _ => rfl, display_frame rfl⟩

end Sys2Proof.Machine
end

section
/-! SUPPORT. Errors and host events (60_exceptions.md): exactly when an instruction and a step raise an error (R190 to R193,
R196), that each port of R203 keeps memory canonical, and the statements of the family, derived from these. -/

namespace Sys2Proof.Machine

open Sys2Proof

/-! ### The errors of an instruction (R192, R193) -/

/-- CALL on a full stack raises StackOverflow. -/
theorem exec_call_of_full (nnn : Addr) {s : State} (h : s.sp.val = 16) : exec (.call nnn) s = .fault .stackOverflow := by
  simp only [exec, execCall, pushPc_none.mpr h, raise_eq]

/-- RET on an empty stack raises StackUnderflow. -/
theorem exec_ret_of_empty {s : State} (h : s.sp.val = 0) : exec .ret s = .fault .stackUnderflow := by
  simp only [exec, execRet, popPc_none.mpr h, raise_eq]

/-- The only errors of an instruction are CALL's on a full stack and RET's on an empty one. -/
theorem exec_fault_iff {i : Instr} {s : State} {f : Fault} : exec i s = .fault f ↔
    (f = .stackOverflow ∧ s.sp.val = 16 ∧ ∃ nnn, i = .call nnn) ∨
      (f = .stackUnderflow ∧ s.sp.val = 0 ∧ i = .ret) := by
  constructor
  · intro h
    obtain ⟨u, hu⟩ | ⟨hf, hcall⟩ | ⟨hf, hret⟩ := exec_outcome i s
    · cases h.symm.trans hu
    · cases h.symm.trans hf
      exact .inl ⟨rfl, hcall⟩
    · cases h.symm.trans hf
      exact .inr ⟨rfl, hret⟩
  · rintro (⟨rfl, hsp, nnn, rfl⟩ | ⟨rfl, hsp, rfl⟩)
    · exact exec_call_of_full nnn hsp
    · exact exec_ret_of_empty hsp

/-! ### The errors of a step (R190, R196) -/

/-- Where an instruction is decoded, the errors of the step are those of the instruction. -/
theorem step_fault_iff_of_decode {s : State} {i : Instr} (h : decode (fetch s) = .ok i) {f : Fault} :
    step s = .fault f ↔ exec i s = .fault f := by
  rw [step_of_decode h, endStep_eq_fault]

/-- The host sees the error of the decoded instruction beside the unchanged state (R78). -/
theorem hostStep_of_exec_fault {s : State} {i : Instr} {f : Fault} (hd : decode (fetch s) = .ok i)
    (hf : exec i s = .fault f) : hostStep s = (.error f, s) :=
  hostStep_of_fault ((step_fault_iff_of_decode hd).mpr hf)

/-- A step at an opcode that decodes to no instruction raises UnknownOpcode with that opcode. -/
theorem step_of_undecoded {s : State} (h : ∀ i, decode (fetch s) ≠ .ok i) : step s = .fault (.unknownOpcode (fetch s)) := by
  cases hd : decode (fetch s) with
  | ok i => exact absurd hd (h i)
  | error e => exact step_of_decode_error hd

/-- The end of a step passes a refusal on. -/
theorem endStep_eq_refused {r : Result} {q : Refusal} : endStep r = .refused q ↔ r = .refused q := by
  cases r <;> simp [endStep]

/-- No step is refused (R198). -/
theorem step_ne_refused (s : State) (q : Refusal) : step s ≠ .refused q := by
  cases hd : decode (fetch s) with
  | ok i => rw [step_of_decode hd, ne_eq, endStep_eq_refused]; exact exec_ne_refused i s q
  | error e => simp [step_of_decode_error hd]

/-! ### Canonical memory along host events (R203, log 19) -/

/-- The host finds the state as it was, or the step's next state. -/
theorem hostStep_state (s : State) : (hostStep s).2 = s ∨ step s = .next (hostStep s).2 := by
  unfold hostStep
  split
  · rename_i t ht
    exact .inr ht
  all_goals exact .inl rfl

theorem step_mem_wf {s t : State} (h : step s = .next t) (hs : Memory.wf s.mem) : Memory.wf t.mem := by
  obtain ⟨i, u, -, hu, rfl⟩ := step_next h
  rw [tick_mem]
  exact exec_mem_wf hu hs

theorem hostStep_mem_wf {s : State} (hs : Memory.wf s.mem) : Memory.wf (hostStep s).2.mem := by
  obtain hsame | hnext := hostStep_state s
  · rwa [hsame]
  · exact step_mem_wf hnext hs

theorem load_mem_wf (bytes : List Byte) {s : State} (hs : Memory.wf s.mem) : Memory.wf (load bytes s).2.mem := by
  unfold load
  split
  · exact storeImage_wf _ _ _ hs
  · exact hs

/-- Every host event keeps memory in canonical form: a reset makes it so from any state, and a load writes into it or is
rejected. -/
theorem hostApply_mem_wf (font : Font) (e : HostEvent) {s : State} (hs : Memory.wf s.mem) :
    Memory.wf (hostApply font e s).2.mem := by
  cases e with
  | reset => exact resetWith_wf font
  | load source =>
    cases source with
    | none => exact hs
    | some bytes => exact load_mem_wf bytes hs
  | keyDown k => exact hs
  | keyUp k => exact hs
  | ackRedraw => exact hs
  | step => exact hostStep_mem_wf hs

/-! ### The statements -/

/-- Settles O19, by induction on the host events. -/
theorem sessionKeepsMemoryCanonical : Obligations.SessionKeepsMemoryCanonical := by
  intro font es
  induction es with
  | nil => exact fun s hs => hs
  | cons e es ih => exact fun s hs => ih _ (hostApply_mem_wf font e hs)

/-- Settles O12: where nothing decodes the error is UnknownOpcode, and where an instruction does it is that instruction's. -/
theorem stepErrorsAreExactlyThree : Obligations.StepErrorsAreExactlyThree := by
  refine fun s => ⟨fun f => ?_, step_ne_refused s⟩
  cases hd : decode (fetch s) with
  | ok i =>
    rw [step_fault_iff_of_decode hd, exec_fault_iff]
    simp
  | error e => simp [step_of_decode_error hd, eq_comm]

/-- Settles O9: the step raises the error, and the host is given the state back. -/
theorem unknownOpcodeReported : Obligations.UnknownOpcodeReported :=
  fun _ h => ⟨step_of_undecoded h, hostStep_of_fault (step_of_undecoded h)⟩

/-- Settles O10: the instruction's error is the step's, and the host is given the state back. -/
theorem callOnFullStackOverflows : Obligations.CallOnFullStackOverflows :=
  fun _ nnn hfull => ⟨exec_call_of_full nnn hfull, fun hd => hostStep_of_exec_fault hd (exec_call_of_full nnn hfull)⟩

/-- Settles O11: the instruction's error is the step's, and the host is given the state back. -/
theorem returnOnEmptyStackUnderflows : Obligations.ReturnOnEmptyStackUnderflows :=
  fun _ hempty => ⟨exec_ret_of_empty hempty, fun hd => hostStep_of_exec_fault hd (exec_ret_of_empty hempty)⟩

end Sys2Proof.Machine
end

section
/-! SUPPORT. Reset, load and the passing of time (70_reset_and_hazards.md): what an instruction leaves in the two timers, said
once in `exec_timers` (R226, R227), the Loader's two answers (R223), the frame and the memory of a reset (R220), the default
FONT (R25, D15), and the statements of the family, derived from these. -/

namespace Sys2Proof.Machine

open Sys2Proof

/-! ### The timers an instruction leaves to the tick (R151, R152, R226) -/

/-- DT as an instruction leaves it to the tick of its step: LD DT,Vx writes it, every other instruction keeps it. -/
def delayLeft (i : Instr) (s : State) : Byte :=
  match i with
  | .ldDtVx x => readV x s
  | _ => s.dt

/-- ST as an instruction leaves it to the tick of its step: LD ST,Vx writes it, every other instruction keeps it. -/
def soundLeft (i : Instr) (s : State) : Byte :=
  match i with
  | .ldStVx x => readV x s
  | _ => s.st

theorem delayLeft_of_ne {i : Instr} (h : ∀ x, i ≠ .ldDtVx x) (s : State) : delayLeft i s = s.dt := by
  cases i
  case ldDtVx x => exact absurd rfl (h x)
  all_goals rfl

theorem soundLeft_of_ne {i : Instr} (h : ∀ x, i ≠ .ldStVx x) (s : State) : soundLeft i s = s.st := by
  cases i
  case ldStVx x => exact absurd rfl (h x)
  all_goals rfl

/-- Every instruction leaves each timer at the value the tick then counts down from. -/
theorem exec_timers {i : Instr} {s u : State} (h : exec i s = .next u) :
    u = { u with dt := delayLeft i s, st := soundLeft i s } := by
  cases i
  case ret => rw [(execRet_next h).2]; rfl
  case call nnn => rw [(execCall_next h).2]; rfl
  case ldVxK x => obtain rfl | ⟨b, rfl⟩ := execLdVxK_next h <;> rfl
  case storeRegs x => cases h; rw [storeV_frame]; rfl
  case loadRegs x => cases h; rw [loadV_frame]; rfl
  all_goals cases h; rfl

theorem exec_dt {i : Instr} {s u : State} (h : exec i s = .next u) : u.dt = delayLeft i s :=
  congrArg State.dt (exec_timers h)

theorem exec_st {i : Instr} {s u : State} (h : exec i s = .next u) : u.st = soundLeft i s :=
  congrArg State.st (exec_timers h)

/-! ### The Loader (R223, D21) -/

theorem load_of_fits {bytes : List Byte} (h : bytes.length < 3584) (s : State) :
    load bytes s = (.ok, storeImage bytes 0x200 s) := if_pos h

theorem load_of_tooLong {bytes : List Byte} (h : 3584 ≤ bytes.length) (s : State) :
    load bytes s = (.programTooLarge, s) := if_neg (Nat.not_lt.mpr h)

/-! ### The state a reset leaves (R220, R221) -/

/-- A reset differs from State.reset in memory only, and keeps the model's draw counter (log 8). -/
theorem hostReset_frame (font : Font) (s : State) :
    hostReset font s = { State.reset with mem := (resetWith font).mem, rndIndex := s.rndIndex } := by
  rw [hostReset, resetWith_frame]

theorem byteAt_resetWith (font : Font) (a : Addr) :
    byteAt a (resetWith font) = if h : a.toNat < 80 then font[a.toNat] else 0#8 :=
  memRead_resetWith font a.toNat a.isLt

theorem byteAt_hostReset (font : Font) (s : State) (a : Addr) : byteAt a (hostReset font s) = byteAt a (resetWith font) :=
  rfl

/-- Above the font a reset leaves 0, whatever the FONT. -/
theorem byteAt_hostReset_of_ge (font : Font) (s : State) {a : Addr} (h : 80 ≤ a.toNat) :
    byteAt a (hostReset font s) = 0#8 := by
  rw [byteAt_hostReset, byteAt_resetWith, dif_neg (Nat.not_lt.mpr h)]

theorem hostReset_resetWith (font : Font) : hostReset font (resetWith font) = resetWith font := rfl

/-! ### The default FONT (R25, D15) -/

theorem read_eq_byteAt (a : Addr) (s : State) : Memory.read s.mem a = byteAt a s := by
  rw [byteAt, memRead, memAddr_toNat]

theorem byteAt_reset (a : Addr) :
    byteAt a State.reset = if a.toNat < 80 then defaultFontByte a.toNat else 0#8 := by
  rw [← read_eq_byteAt]
  exact read_nil a

theorem defaultFontByte_eq {k : Nat} (h : k < 80) : defaultFontByte k = defaultFont[k] :=
  List.getD_eq_getElem _ _ h

/-- State.reset is the reset with the default FONT: every address reads the same, and both memories are canonical. -/
theorem reset_eq_resetWith_defaultFont : State.reset = resetWith defaultFont := by
  have hmem : State.reset.mem = (resetWith defaultFont).mem := by
    refine wf_ext reset_mem_wf (resetWith_wf defaultFont) fun a => ?_
    rw [read_eq_byteAt, read_eq_byteAt, byteAt_reset, byteAt_resetWith]
    by_cases h : a.toNat < 80
    · rw [if_pos h, dif_pos h, defaultFontByte_eq h]
    · rw [if_neg h, dif_neg h]
  rw [resetWith_frame, ← hmem]

/-- Every reset state of the model is what the port `reset` of some FONT leaves. -/
theorem eq_hostReset_of_mem {font : Font} {s t : State} (h : t ∈ [State.reset, resetWith font, hostReset font s]) :
    ∃ f r, t = hostReset f r := by
  simp only [List.mem_cons, List.not_mem_nil, or_false] at h
  obtain rfl | rfl | rfl := h
  · exact ⟨defaultFont, resetWith defaultFont, by rw [hostReset_resetWith, reset_eq_resetWith_defaultFont]⟩
  · exact ⟨font, resetWith font, rfl⟩
  · exact ⟨font, s, rfl⟩

theorem resetWith_inv (font : Font) : Inv (resetWith font) where
  memory := resetWith_wf font
  toneAtZero := fun _ => congrArg State.st (resetWith_frame font)
  blockedWaits := fun hb => by
    cases (congrArg State.outcome (resetWith_frame font)).symm.trans hb

/-! ### The statements -/

/-- Settles O20: a shorter image is stored from 0x200, where it ends below address 4096, and a longer one is refused. -/
theorem loadWritesImage : Obligations.LoadWritesImage := by
  refine fun bytes s => ⟨fun hfits => ?_, fun hlong => load_of_tooLong hlong s⟩
  have hend : 0x200 + bytes.length ≤ 4096 := by omega
  rw [load_of_fits hfits]
  refine ⟨rfl, fun j hj => ?_, fun a ha => ?_, storeImage_frame bytes 0x200 s⟩
  · exact (byteAt_memAddr (0x200 + j) _).trans (storeImage_at bytes 0x200 j s hj hend)
  · exact storeImage_other bytes 0x200 a.toNat s ha hend a.isLt

/-- Settles O55: the tick counts down what the instruction left, which is the old timer or the value it wrote. -/
theorem timersCountSteps : Obligations.TimersCountSteps := by
  intro s t h
  obtain ⟨i, u, hi, hu, rfl⟩ := step_next h
  rw [tick_dt_toNat, tick_st_toNat, exec_dt hu, exec_st hu]
  refine ⟨fun hne => ?_, fun hne => ?_, fun x hx => ?_, fun x hx => ?_⟩
  · rw [delayLeft_of_ne fun x hix => hne x (hix ▸ hi)]
  · rw [soundLeft_of_ne fun x hix => hne x (hix ▸ hi)]
  all_goals
    cases hi.symm.trans hx
    rfl

/-- Settles O15: each of the three is a reset by some FONT, which State.reset determines but for memory; the bytes of memory
are those of FONT and then 0. -/
theorem resetValues : Obligations.ResetValues := by
  intro font s
  constructor
  · intro t ht
    obtain ⟨f, r, rfl⟩ := eq_hostReset_of_mem ht
    have hzero : ∀ a : Addr, 80 ≤ a.toNat → byteAt a (hostReset f r) = 0#8 := fun a => byteAt_hostReset_of_ge f r
    rw [hostReset_frame] at hzero ⊢
    exact ⟨rfl, rfl, rfl, fun _ => Vector.getElem_replicate _, fun _ hk => Vector.getElem_replicate hk,
      fun _ => Vector.getElem_replicate _, fun x y _ _ => get_clear x y, hzero, rfl, rfl, rfl⟩
  · intro t ht a ha
    have hbyte : byteAt a t = byteAt a (resetWith font) := by
      simp only [List.mem_cons, List.not_mem_nil, or_false] at ht
      obtain rfl | rfl := ht
      · rfl
      · exact byteAt_hostReset font s a
    rw [hbyte, byteAt_resetWith, dif_pos ha]

/-- Settles O16: a reset takes nothing but the draw counter from the state before it, and the program stands above the
font. -/
theorem resetIdempotent : Obligations.ResetIdempotent :=
  fun font s _ => ⟨rfl, rfl, congrArg State.tone (hostReset_frame font s),
    fun _ ha => byteAt_hostReset_of_ge font s (by omega)⟩

/-- Settles O17: the invariant holds for every FONT, and State.reset is the case of the default FONT. -/
theorem invariantAtReset : Obligations.InvariantAtReset :=
  ⟨reset_eq_resetWith_defaultFont ▸ resetWith_inv defaultFont, resetWith_inv, reset_eq_resetWith_defaultFont⟩

end Sys2Proof.Machine
end
